-- ==== Sys2Proof/Word.lean ====
section
/-! DEFINITION. The bit widths of the machine (spec/00_scope.md R5, R7): every register and memory value is an
unsigned bit vector, and the manual numbers bits from 0 at the least significant one. -/

namespace Sys2Proof

/-- A general register, a memory cell, a timer (R5: 8 bits). -/
abbrev Byte := BitVec 8

/-- The instruction word, `I`, `PC` and a stack entry (R5: 16 bits). -/
abbrev Word := BitVec 16

/-- A hexadecimal digit of the instruction word: a register number `x` or `y`, or the immediate `n` (R10). -/
abbrev Nibble := BitVec 4

/-- The 12-bit address immediate `nnn` (R10). -/
abbrev Addr := BitVec 12

end Sys2Proof
end

