-- ==== Sys2Proof/Config.lean ====
section
/-! DEFINITION. What an implementation fixes for a power-on (spec/00_scope.md R6), and the free values: the values
the spec leaves to the host under no law. A free value is an opaque constant, so no proof can see what it is. -/

namespace Sys2Proof

/-- `SHIFT_SRC` (R6): which register `8xy6` and `8xyE` shift (R168, R170). -/
inductive ShiftSrc where
  | vx
  | vy
deriving DecidableEq, Repr

/-- The named parameters of R6. They are given at power-on (R290) and fixed until the next one (R32), so State carries
them and every statement over all states holds for each setting (log 7). -/
structure Params where
  /-- `SHIFT_SRC`. -/
  shiftSrc : ShiftSrc
  /-- `FONT_BASE`, the address of the sprite of digit 0. -/
  fontBase : Addr
  /-- `FONT_ROM`, sixteen sprites of five bytes. -/
  fontRom : Vector Byte 80
deriving DecidableEq, Repr

/-- `RandomByte()` (R171): a draw under no law. Its argument is State's counter `draws` (log 6). -/
opaque Config.randomByte : Nat → Byte

/-- The answer of `KeyPressed(k)` for `k` above 15 (D20: any value, one unconstrained bit per execution). Its argument
is State's counter `draws` (log 5). -/
opaque Config.unknownKey : Nat → Bool

end Sys2Proof
end

