-- ==== Sys2Proof/Syntax.lean ====
section
/-! DEFINITION. The 34 instructions (spec/30_encoding.md R96), one constructor per row of spec/opcode_table.json, in the
table's order. The operands are the fields of R92 at their own widths: `x`, `y` register numbers, `kk`, `n`, `nnn`
immediates. -/

namespace Sys2Proof

inductive Instr where
  /-- `00E0` CLS (R210). -/
  | cls
  /-- `00EE` RET (R140). -/
  | ret
  /-- `1nnn` JP nnn (R141). -/
  | jp (nnn : Addr)
  /-- `2nnn` CALL nnn (R142). -/
  | call (nnn : Addr)
  /-- `3xkk` SE Vx, kk (R144). -/
  | seImm (x : Nibble) (kk : Byte)
  /-- `4xkk` SNE Vx, kk (R145). -/
  | sneImm (x : Nibble) (kk : Byte)
  /-- `5xy0` SE Vx, Vy (R146). -/
  | seReg (x y : Nibble)
  /-- `6xkk` LD Vx, kk (R160). -/
  | ldImm (x : Nibble) (kk : Byte)
  /-- `7xkk` ADD Vx, kk (R161). -/
  | addImm (x : Nibble) (kk : Byte)
  /-- `8xy0` LD Vx, Vy (R162). -/
  | ldReg (x y : Nibble)
  /-- `8xy1` OR Vx, Vy (R163). -/
  | orReg (x y : Nibble)
  /-- `8xy2` AND Vx, Vy (R164). -/
  | andReg (x y : Nibble)
  /-- `8xy3` XOR Vx, Vy (R165). -/
  | xorReg (x y : Nibble)
  /-- `8xy4` ADD Vx, Vy (R166). -/
  | addReg (x y : Nibble)
  /-- `8xy5` SUB Vx, Vy (R167). -/
  | subReg (x y : Nibble)
  /-- `8xy6` SHR Vx, Vy (R168). -/
  | shr (x y : Nibble)
  /-- `8xy7` SUBN Vx, Vy (R169). -/
  | subn (x y : Nibble)
  /-- `8xyE` SHL Vx, Vy (R170). -/
  | shl (x y : Nibble)
  /-- `9xy0` SNE Vx, Vy (R147). -/
  | sneReg (x y : Nibble)
  /-- `Annn` LD I, nnn (R190). -/
  | ldI (nnn : Addr)
  /-- `Bnnn` JP V0, nnn (R143). -/
  | jpV0 (nnn : Addr)
  /-- `Cxkk` RND Vx, kk (R171). -/
  | rnd (x : Nibble) (kk : Byte)
  /-- `Dxyn` DRW Vx, Vy, n (R211). -/
  | drw (x y n : Nibble)
  /-- `Ex9E` SKP Vx (R231). -/
  | skp (x : Nibble)
  /-- `ExA1` SKNP Vx (R232). -/
  | sknp (x : Nibble)
  /-- `Fx07` LD Vx, DT (R234). -/
  | ldVxDt (x : Nibble)
  /-- `Fx0A` LD Vx, K (R233). -/
  | ldVxK (x : Nibble)
  /-- `Fx15` LD DT, Vx (R235). -/
  | ldDtVx (x : Nibble)
  /-- `Fx18` LD ST, Vx (R236). -/
  | ldStVx (x : Nibble)
  /-- `Fx1E` ADD I, Vx (R191). -/
  | addI (x : Nibble)
  /-- `Fx29` LD F, Vx (R192). -/
  | ldF (x : Nibble)
  /-- `Fx33` LD B, Vx (R193). -/
  | ldB (x : Nibble)
  /-- `Fx55` LD [I], Vx (R194). -/
  | storeRegs (x : Nibble)
  /-- `Fx65` LD Vx, [I] (R195). -/
  | loadRegs (x : Nibble)
deriving DecidableEq, Repr

end Sys2Proof
end

