-- ==== Sys2Proof/WellFormed.lean ====
section
/-! DEFINITION. The checks on what enters the machine from outside.

No check on an instruction is needed: operand fields take every value of their width (spec/30_encoding.md R100) and the
constructors of `Instr` carry exactly those widths, so every `Instr` is well-formed by its type. What a host hands to the
engine can be ill-formed: the parameters of a power-on and the length of a program. -/

namespace Sys2Proof

/-- `FONT_BASE + 79 <= 0x1FF` (spec/43_index_memory.md R192). -/
def Params.wellFormed (p : Params) : Bool :=
  decide (p.fontBase.toNat + 79 ≤ 0x1FF)

/-- A program of at most 3584 bytes (spec/70_reset_and_hazards.md R294: 4096 - 0x200). -/
def programFits (program : List Byte) : Bool :=
  decide (program.length ≤ 3584)

end Sys2Proof
end

