-- ==== Sys2Proof/Decode.lean ====
section
/-! DEFINITION. From bits to an instruction and back (spec/30_encoding.md). `decodeWord` is the `Decode` of R95;
`decode` takes bytes, the first byte high (R64, R90), and rejects by name; `encodeWord` fills the fields into the words of
R96; `tableRow` is the match and mask column of R96. -/

namespace Sys2Proof

/-- The opcode class, `w[15:12]` (R91, R92). -/
def opClass (w : Word) : Nibble := w.extractLsb' 12 4

/-- The register number `x`, `w[11:8]` (R92). -/
def fieldX (w : Word) : Nibble := w.extractLsb' 8 4

/-- The register number `y`, `w[7:4]` (R92). -/
def fieldY (w : Word) : Nibble := w.extractLsb' 4 4

/-- The immediate `n`, or the sub-opcode digit, `w[3:0]` (R92). -/
def fieldN (w : Word) : Nibble := w.extractLsb' 0 4

/-- The immediate `kk`, or the sub-opcode byte, `w[7:0]` (R92). -/
def fieldKK (w : Word) : Byte := w.extractLsb' 0 8

/-- The address immediate `nnn`, `w[11:0]` (R92). -/
def fieldNNN (w : Word) : Addr := w.extractLsb' 0 12

/-- Class 8: the last digit selects the operation (R95, R97). -/
def decodeAlu (x y : Nibble) (n : Nat) : Option Instr :=
  match n with
  | 0x0 => some (.ldReg x y)
  | 0x1 => some (.orReg x y)
  | 0x2 => some (.andReg x y)
  | 0x3 => some (.xorReg x y)
  | 0x4 => some (.addReg x y)
  | 0x5 => some (.subReg x y)
  | 0x6 => some (.shr x y)
  | 0x7 => some (.subn x y)
  | 0xE => some (.shl x y)
  | _ => none

/-- Class E: the low byte selects the operation (R95). -/
def decodeKey (x : Nibble) (kk : Nat) : Option Instr :=
  match kk with
  | 0x9E => some (.skp x)
  | 0xA1 => some (.sknp x)
  | _ => none

/-- Class F: the low byte selects the operation (R95). -/
def decodeMisc (x : Nibble) (kk : Nat) : Option Instr :=
  match kk with
  | 0x07 => some (.ldVxDt x)
  | 0x0A => some (.ldVxK x)
  | 0x15 => some (.ldDtVx x)
  | 0x18 => some (.ldStVx x)
  | 0x1E => some (.addI x)
  | 0x29 => some (.ldF x)
  | 0x33 => some (.ldB x)
  | 0x55 => some (.storeRegs x)
  | 0x65 => some (.loadRegs x)
  | _ => none

/-- `Decode(w)` of R95, total on all 65536 words; `none` is `Invalid` (R98). -/
def decodeWord (w : Word) : Option Instr :=
  match (opClass w).toNat with
  | 0x0 => if w = 0x00E0 then some .cls else if w = 0x00EE then some .ret else none
  | 0x1 => some (.jp (fieldNNN w))
  | 0x2 => some (.call (fieldNNN w))
  | 0x3 => some (.seImm (fieldX w) (fieldKK w))
  | 0x4 => some (.sneImm (fieldX w) (fieldKK w))
  | 0x5 => if fieldN w = 0 then some (.seReg (fieldX w) (fieldY w)) else none
  | 0x6 => some (.ldImm (fieldX w) (fieldKK w))
  | 0x7 => some (.addImm (fieldX w) (fieldKK w))
  | 0x8 => decodeAlu (fieldX w) (fieldY w) (fieldN w).toNat
  | 0x9 => if fieldN w = 0 then some (.sneReg (fieldX w) (fieldY w)) else none
  | 0xA => some (.ldI (fieldNNN w))
  | 0xB => some (.jpV0 (fieldNNN w))
  | 0xC => some (.rnd (fieldX w) (fieldKK w))
  | 0xD => some (.drw (fieldX w) (fieldY w) (fieldN w))
  | 0xE => decodeKey (fieldX w) (fieldKK w).toNat
  | _ => decodeMisc (fieldX w) (fieldKK w).toNat

/-- Why bytes are not an instruction. -/
inductive Reject where
  /-- Fewer than the two bytes every instruction has (R90). -/
  | truncated
  /-- The word matches no row of R96 (R98). -/
  | unrecognizedOpcode (w : Word)
deriving DecidableEq, Repr

/-- `MEM[PC] ++ MEM[PC+1]`: the byte at the lower address is the high byte (R64, R90). -/
def joinBytes (hi lo : Byte) : Word := hi ++ lo

/-- What decoding bytes answers. -/
inductive Decoded where
  /-- The instruction at the front, and the bytes after it. -/
  | instr (i : Instr) (rest : List Byte)
  /-- No instruction, by name. -/
  | reject (why : Reject)
deriving DecidableEq, Repr

/-- The instruction at the front of a byte sequence, with the bytes after it; total on any bytes. -/
def decode (bytes : List Byte) : Decoded :=
  match bytes with
  | hi :: lo :: rest =>
    match decodeWord (joinBytes hi lo) with
    | some i => .instr i rest
    | none => .reject (.unrecognizedOpcode (joinBytes hi lo))
  | [_] => .reject .truncated
  | [] => .reject .truncated

/-- Format `A` of R93: class and `nnn`. -/
def wordA (c : Nibble) (nnn : Addr) : Word := c ++ nnn

/-- Formats `XK` and `XS` of R93: class, `x` and a low byte. -/
def wordXK (c x : Nibble) (kk : Byte) : Word := (c ++ x ++ kk : BitVec (4 + 4 + 8))

/-- Formats `XY` and `XYN` of R93: class, `x`, `y` and a last digit. -/
def wordXYN (c x y n : Nibble) : Word := (c ++ x ++ y ++ n : BitVec (4 + 4 + 4 + 4))

/-- The word of R96 with the fields filled in (R102). -/
def encodeWord : Instr → Word
  | .cls => 0x00E0
  | .ret => 0x00EE
  | .jp nnn => wordA 0x1 nnn
  | .call nnn => wordA 0x2 nnn
  | .seImm x kk => wordXK 0x3 x kk
  | .sneImm x kk => wordXK 0x4 x kk
  | .seReg x y => wordXYN 0x5 x y 0x0
  | .ldImm x kk => wordXK 0x6 x kk
  | .addImm x kk => wordXK 0x7 x kk
  | .ldReg x y => wordXYN 0x8 x y 0x0
  | .orReg x y => wordXYN 0x8 x y 0x1
  | .andReg x y => wordXYN 0x8 x y 0x2
  | .xorReg x y => wordXYN 0x8 x y 0x3
  | .addReg x y => wordXYN 0x8 x y 0x4
  | .subReg x y => wordXYN 0x8 x y 0x5
  | .shr x y => wordXYN 0x8 x y 0x6
  | .subn x y => wordXYN 0x8 x y 0x7
  | .shl x y => wordXYN 0x8 x y 0xE
  | .sneReg x y => wordXYN 0x9 x y 0x0
  | .ldI nnn => wordA 0xA nnn
  | .jpV0 nnn => wordA 0xB nnn
  | .rnd x kk => wordXK 0xC x kk
  | .drw x y n => wordXYN 0xD x y n
  | .skp x => wordXK 0xE x 0x9E
  | .sknp x => wordXK 0xE x 0xA1
  | .ldVxDt x => wordXK 0xF x 0x07
  | .ldVxK x => wordXK 0xF x 0x0A
  | .ldDtVx x => wordXK 0xF x 0x15
  | .ldStVx x => wordXK 0xF x 0x18
  | .addI x => wordXK 0xF x 0x1E
  | .ldF x => wordXK 0xF x 0x29
  | .ldB x => wordXK 0xF x 0x33
  | .storeRegs x => wordXK 0xF x 0x55
  | .loadRegs x => wordXK 0xF x 0x65

/-- The high byte of a word, stored at the lower address (R64). -/
def highByte (w : Word) : Byte := w.extractLsb' 8 8

/-- The low byte of a word (R64). -/
def lowByte (w : Word) : Byte := w.extractLsb' 0 8

/-- The two bytes of an instruction, high byte first (R102). -/
def encode (i : Instr) : List Byte := [highByte (encodeWord i), lowByte (encodeWord i)]

/-- The `match` and `mask` columns of R96: a word is this instruction exactly when `(w AND mask) = match`. -/
def tableRow : Instr → Word × Word
  | .cls => (0x00E0, 0xFFFF)
  | .ret => (0x00EE, 0xFFFF)
  | .jp _ => (0x1000, 0xF000)
  | .call _ => (0x2000, 0xF000)
  | .seImm _ _ => (0x3000, 0xF000)
  | .sneImm _ _ => (0x4000, 0xF000)
  | .seReg _ _ => (0x5000, 0xF00F)
  | .ldImm _ _ => (0x6000, 0xF000)
  | .addImm _ _ => (0x7000, 0xF000)
  | .ldReg _ _ => (0x8000, 0xF00F)
  | .orReg _ _ => (0x8001, 0xF00F)
  | .andReg _ _ => (0x8002, 0xF00F)
  | .xorReg _ _ => (0x8003, 0xF00F)
  | .addReg _ _ => (0x8004, 0xF00F)
  | .subReg _ _ => (0x8005, 0xF00F)
  | .shr _ _ => (0x8006, 0xF00F)
  | .subn _ _ => (0x8007, 0xF00F)
  | .shl _ _ => (0x800E, 0xF00F)
  | .sneReg _ _ => (0x9000, 0xF00F)
  | .ldI _ => (0xA000, 0xF000)
  | .jpV0 _ => (0xB000, 0xF000)
  | .rnd _ _ => (0xC000, 0xF000)
  | .drw _ _ _ => (0xD000, 0xF000)
  | .skp _ => (0xE09E, 0xF0FF)
  | .sknp _ => (0xE0A1, 0xF0FF)
  | .ldVxDt _ => (0xF007, 0xF0FF)
  | .ldVxK _ => (0xF00A, 0xF0FF)
  | .ldDtVx _ => (0xF015, 0xF0FF)
  | .ldStVx _ => (0xF018, 0xF0FF)
  | .addI _ => (0xF01E, 0xF0FF)
  | .ldF _ => (0xF029, 0xF0FF)
  | .ldB _ => (0xF033, 0xF0FF)
  | .storeRegs _ => (0xF055, 0xF0FF)
  | .loadRegs _ => (0xF065, 0xF0FF)

/-- The two bytes, as the hardware stores them, of an instruction whose bits the opcode table numbers from 0 at the least
significant bit of its one 16-bit word; bits at and above `nbits` are 0. -/
def tableBytes (nbits w : Nat) : List Byte :=
  [highByte (BitVec.ofNat 16 (w % 2 ^ nbits)), lowByte (BitVec.ofNat 16 (w % 2 ^ nbits))]

/-- The instruction the decoder reads from a word of the opcode table. -/
def decodeTableWord (nbits w : Nat) : Option Instr :=
  match decode (tableBytes nbits w) with
  | .instr i _ => some i
  | .reject _ => none

end Sys2Proof
end

