-- ==== Sys2Proof/Machine/Font.lean ====
section
/-! DEFINITION. The built-in digit sprites (spec/43_index_memory.md R192) and the default parameters (spec/00_scope.md
R6). -/

namespace Sys2Proof.Machine

/-- The default `FONT_ROM`: the sprites of the digits 0 to F in order, five bytes each (the table of R192). -/
def defaultFontRom : Vector Byte 80 :=
  #v[0xF0, 0x90, 0x90, 0x90, 0xF0, -- 0
     0x20, 0x60, 0x20, 0x20, 0x70, -- 1
     0xF0, 0x10, 0xF0, 0x80, 0xF0, -- 2
     0xF0, 0x10, 0xF0, 0x10, 0xF0, -- 3
     0x90, 0x90, 0xF0, 0x10, 0x10, -- 4
     0xF0, 0x80, 0xF0, 0x10, 0xF0, -- 5
     0xF0, 0x80, 0xF0, 0x90, 0xF0, -- 6
     0xF0, 0x10, 0x20, 0x40, 0x40, -- 7
     0xF0, 0x90, 0xF0, 0x90, 0xF0, -- 8
     0xF0, 0x90, 0xF0, 0x10, 0xF0, -- 9
     0xF0, 0x90, 0xF0, 0x90, 0x90, -- A
     0xE0, 0x90, 0xE0, 0x90, 0xE0, -- B
     0xF0, 0x80, 0x80, 0x80, 0xF0, -- C
     0xE0, 0x90, 0x90, 0x90, 0xE0, -- D
     0xF0, 0x80, 0xF0, 0x80, 0xF0, -- E
     0xF0, 0x80, 0xF0, 0x80, 0x80] -- F

/-- The defaults of R6: `SHIFT_SRC = VX`, `FONT_BASE = 0x000`, the table above. -/
def defaultParams : Params :=
  { shiftSrc := .vx, fontBase := 0x000, fontRom := defaultFontRom }

/-- What power-on puts at address `a` (spec/70_reset_and_hazards.md R290): a byte of `FONT_ROM` at `FONT_BASE` to
`FONT_BASE + 79`, and 0 elsewhere. -/
def powerOnByte (p : Params) (a : Nat) : Byte :=
  if h : p.fontBase.toNat ≤ a ∧ a < p.fontBase.toNat + 80 then p.fontRom[a - p.fontBase.toNat]'(by omega) else 0

end Sys2Proof.Machine
end

