-- ==== Sys2Proof/Machine/Memory.lean ====
section
/-! DEFINITION. The 4096-byte memory `MEM` (spec/10_state.md R26, spec/20_memory.md R60 to R63) as a list of address and
byte pairs in one canonical form. What an unlisted address reads as is the byte it holds after a power-on with the default
parameters (log 8). -/

namespace Sys2Proof.Machine

/-- Memory as a list of cells. -/
abbrev Memory := List Host.Cell

/-- What an address that no cell lists reads as. -/
def Memory.unlisted (a : Nat) : Byte := powerOnByte defaultParams a

/-- The highest address, 0xFFF (R60). -/
def topAddress : Nat := 0xFFF

/-- The canonical form: addresses strictly rise, none lies above 0xFFF, and no cell lists the byte its address would
read as anyway. -/
abbrev Memory.wf (m : Memory) : Prop :=
  m.Pairwise (fun c d => c.1 < d.1) ∧ ∀ c ∈ m, c.1 ≤ topAddress ∧ c.2 ≠ Memory.unlisted c.1

/-- `MEM[a]` (R62); the meanings check the bound before they read. -/
def Memory.read (m : Memory) (a : Nat) : Byte :=
  match m with
  | [] => Memory.unlisted a
  | (b, v) :: rest => if a = b then v else Memory.read rest a

/-- Puts a cell in front, unless its address reads as `v` without one. -/
def Memory.put (rest : Memory) (a : Nat) (v : Byte) : Memory :=
  if v = Memory.unlisted a then rest else (a, v) :: rest

/-- `MEM[a] <- v` (R63); the meanings check the bound before they write. -/
def Memory.write (m : Memory) (a : Nat) (v : Byte) : Memory :=
  match m with
  | [] => Memory.put [] a v
  | (b, u) :: rest =>
    if a < b then Memory.put ((b, u) :: rest) a v
    else if a = b then Memory.put rest a v
    else (b, u) :: Memory.write rest a v

/-- The `n` bytes at `a`, lowest address first. -/
def Memory.readBytes (m : Memory) (a : Nat) : Nat → List Byte
  | 0 => []
  | n + 1 => m.read a :: Memory.readBytes m (a + 1) n

/-- Byte stores at ascending addresses from `a` (R63). -/
def Memory.writeBytes (m : Memory) (a : Nat) : List Byte → Memory
  | [] => m
  | v :: rest => Memory.writeBytes (m.write a v) (a + 1) rest

/-- The memory that holds `f a` at each of the first `n` addresses and is unlisted above. -/
def Memory.fill (f : Nat → Byte) : Nat → Memory
  | 0 => []
  | n + 1 => (Memory.fill f n).write n (f n)

/-- All of memory after a power-on with the parameters `p` (spec/70_reset_and_hazards.md R290). The font lies below 0x200
(spec/43_index_memory.md R192), and so do all cells that can differ from an unlisted address. -/
def powerOnMemory (p : Params) : Memory := Memory.fill (powerOnByte p) 0x200

end Sys2Proof.Machine
end

