-- ==== Sys2Proof/Machine/State.lean ====
section
/-! DEFINITION. The state of the machine as plain data (spec/10_state.md), the host inputs whose current value a step
consults, the order in which engine, ticker and host move, and the ways a step can stop. -/

namespace Sys2Proof.Machine

/-- `CAUSE` (spec/60_exceptions.md R251). -/
inductive Cause where
  | none
  | unrecognizedOpcode
  | stackOverflow
  | stackUnderflow
  | outputSendFailure
  | memoryBounds
  | programTooLarge
deriving DecidableEq, Repr

/-- The display buffer `DISP[r][c]`: 32 rows of 64 pixels, row 0 on top (spec/10_state.md R29). -/
abbrev Display := Vector (Vector Bool 64) 32

/-- The display with all pixels 0. -/
def Display.blank : Display := Vector.replicate 32 (Vector.replicate 64 false)

/-- A message on the Output channel (spec/44_display.md R213). -/
inductive Message where
  | clear
  | draw (snapshot : Display)
deriving DecidableEq, Repr

/-- Who moves next, and what it does (spec/40_cycle.md R120, spec/70_reset_and_hazards.md R296). -/
inductive Turn where
  /-- The engine takes one step (R121). -/
  | engine
  /-- The ticker decrements `DT` and `ST` (spec/45_keys_timers.md R237). -/
  | tick
  /-- Warm reset (spec/70_reset_and_hazards.md R292). -/
  | warmReset
  /-- Power-on with the given parameters (R290). -/
  | powerOn (p : Params)
  /-- Program load (R294). -/
  | load (program : List Byte)
  /-- The host presses or releases key `k` (R230, R296). -/
  | setKey (k : Nibble) (down : Bool)
  /-- The host reports a key press to a holding `Fx0A` (R233, R296). -/
  | reportKey (k : Nibble)
  /-- The Display collaborator goes away (R214). -/
  | closeSink
  /-- The Display consumes Output messages (R296). -/
  | consumeOutput
  /-- The host reads `ST`, `HALT` and `CAUSE` (R296). -/
  | readPorts
deriving DecidableEq, Repr

/-- All state of the machine. -/
structure State where
  /-- `V[0]` to `V[15]` (R20); `V[15]` is `VF` (R21). -/
  v : Vector Byte 16
  /-- The index register `I` (R22). -/
  i : Word
  /-- The program counter `PC` (R23). -/
  pc : Word
  /-- `SP`, the number of live stack entries, 0 to 16 (R24). -/
  sp : Fin 17
  /-- `STACK[0]` to `STACK[15]` (R25). -/
  stack : Vector Word 16
  /-- `MEM` (R26). -/
  mem : Memory
  /-- The delay timer `DT` (R27). -/
  dt : Byte
  /-- The sound timer `ST` (R28). -/
  st : Byte
  /-- `DISP` (R29). -/
  disp : Display
  /-- `HALT` (R30). -/
  halt : Bool
  /-- `CAUSE` (R30). -/
  cause : Cause
  /-- `OUT`, oldest message first (R31). -/
  out : List Message
  /-- The parameters of the last power-on (R6, R32; log 7). -/
  params : Params
  /-- Host input `sink_open` (R214). -/
  sinkOpen : Bool
  /-- Host input: which keys are pressed (R230; log 4). -/
  keys : Vector Bool 16
  /-- Host input: the key press reported to this execution of `Fx0A`, if any (R233; log 4). -/
  keyReport : Option Nibble
  /-- The model's own: the turns to come; empty means that the engine moves (log 3). -/
  agenda : List Turn
  /-- The model's own: how many free values have been drawn (log 5, log 6). -/
  draws : Nat
  /-- The model's own: the engine has taken a turn since power-on or warm reset (R294; log 10). -/
  executing : Bool
deriving DecidableEq, Repr

/-- Why the machine stops. -/
inductive Fault where
  /-- Raised by an engine turn of a halted engine: it has taken the fatal condition `cause` before and has no step
  (spec/40_cycle.md R121, spec/60_exceptions.md R253). Safe (log 1). -/
  | halted (cause : Cause)
deriving DecidableEq, Repr

/-- What the model does not admit. -/
inductive Refusal where
  /-- Answered by an arm of `exec` whose instruction has no meaning yet; no arm does so. Safe. -/
  | notModelled (mnemonic : String)
  /-- Answered by a load while the engine executes, which the spec does not model (spec/70_reset_and_hazards.md R294,
  spec/93_implementation_defined.md U24). Safe (log 10). -/
  | loadWhileExecuting
  /-- Answered by a key report that no `Fx0A` waits for (precondition of spec/70_reset_and_hazards.md R296). Safe
  (log 11). -/
  | keyReportNotAwaited
  /-- Answered by a power-on whose `FONT_BASE` breaks `FONT_BASE + 79 <= 0x1FF` (spec/43_index_memory.md R192). Safe
  (log 15). -/
  | fontOutOfRange
deriving DecidableEq, Repr

/-- The machine after power-on with the default parameters (spec/10_state.md R34, spec/70_reset_and_hazards.md R290). -/
def State.reset : State where
  v := Vector.replicate 16 0
  i := 0
  pc := 0x200
  sp := 0
  stack := Vector.replicate 16 0
  mem := []
  dt := 0
  st := 0
  disp := Display.blank
  halt := false
  cause := .none
  out := []
  params := defaultParams
  sinkOpen := true
  keys := Vector.replicate 16 false
  keyReport := none
  agenda := []
  draws := 0
  executing := false

end Sys2Proof.Machine
end

