-- ==== Sys2Proof/Machine/Ops.lean ====
section
/-! DEFINITION. The named operations over registers, program counter, stack, Output channel and memory bounds, and taking
a fatal condition (spec/60_exceptions.md R252). There is no return from one (R253). -/

namespace Sys2Proof.Machine

/-- What a meaning answers. -/
abbrev Result := Host.Outcome State Fault Refusal

/-- `V[x]` (spec/10_state.md R20). -/
def State.reg (s : State) (x : Nibble) : Byte := s.v[x.toNat]'(x.isLt)

/-- `V[x] <- b`. -/
def State.setReg (s : State) (x : Nibble) (b : Byte) : State := { s with v := s.v.set x.toNat b x.isLt }

/-- The register number of `VF` (R21). -/
def vf : Nibble := 0xF

/-- A sequential instruction's PC write (spec/40_cycle.md R122). -/
def State.advance (s : State) : State := { s with pc := s.pc + 2 }

/-- A skip's PC write (R122). -/
def State.skipIf (c : Bool) (s : State) : State := { s with pc := if c then s.pc + 4 else s.pc + 2 }

/-- A transfer's PC write (R122). -/
def State.jump (s : State) (target : Word) : State := { s with pc := target }

/-- Destination first, flag second (spec/40_cycle.md R124): with `x` = 15 the flag remains. -/
def State.setWithFlag (s : State) (x : Nibble) (result flag : Byte) : State := (s.setReg x result).setReg vf flag

/-- Taking a fatal condition (spec/60_exceptions.md R252): the state before the step but for `HALT` and `CAUSE`. -/
def State.raise (c : Cause) (s : State) : State := { s with halt := true, cause := c }

/-- The answer of an instruction that raises `c`: a next state. -/
def fatal (c : Cause) (s : State) : Result := .next (s.raise c)

/-- `STACK[SP] <- a; SP <- SP + 1` (spec/41_flow.md R142), for a stack that is not full. -/
def State.push (s : State) (a : Word) (h : s.sp.val < 16) : State :=
  { s with stack := s.stack.set s.sp.val a h, sp := ⟨s.sp.val + 1, by omega⟩ }

/-- `STACK[SP - 1]` (spec/41_flow.md R140); `00EE` reads it only when the stack is not empty. -/
def State.top (s : State) : Word := s.stack[s.sp.val - 1]'(by omega)

/-- `SP <- SP - 1`; the entries keep their values (spec/10_state.md R25). -/
def State.drop (s : State) : State := { s with sp := ⟨s.sp.val - 1, by omega⟩ }

/-- `Emit(m)` (spec/44_display.md R213). -/
def State.emit (s : State) (m : Message) : State := { s with out := s.out ++ [m] }

/-- Raises `OutputSendFailure` before anything is changed when the sink is gone (spec/44_display.md R214). -/
def sending (s : State) (k : Result) : Result :=
  if s.sinkOpen then k else fatal .outputSendFailure s

/-- Raises `MemoryBounds` before anything is changed when the highest address accessed lies above 0xFFF
(spec/20_memory.md R65: addresses are unbounded integers). -/
def accessing (highest : Nat) (s : State) (k : Result) : Result :=
  if topAddress < highest then fatal .memoryBounds s else k

/-- `MemRead(PC, 2)` (spec/20_memory.md R64): `none` is `MemoryBounds`; the first byte is the high one. -/
def State.fetch (s : State) : Option Word :=
  if topAddress < s.pc.toNat + 1 then none
  else some (joinBytes (s.mem.read s.pc.toNat) (s.mem.read (s.pc.toNat + 1)))

end Sys2Proof.Machine
end

