-- ==== Sys2Proof/Machine/Flags.lean ====
section
/-! DEFINITION. The values written to `VF`, the only flag (spec/10_state.md R21, spec/42_alu.md R159): exactly 0 or 1. -/

namespace Sys2Proof.Machine

/-- A flag as the byte written to `VF`. -/
def flagByte (b : Bool) : Byte := if b then 1 else 0

/-- The carry of `8xy4`: the sum before wrapping exceeds 255 (R166). -/
def carry (a b : Byte) : Bool := decide (255 < a.toNat + b.toNat)

/-- The flag of `8xy5` and, with the operands exchanged, of `8xy7`: strictly greater (R167, R169). -/
def greater (a b : Byte) : Bool := decide (b.toNat < a.toNat)

/-- The bit a right shift by one shifts out (R168). -/
def lowBit (b : Byte) : Bool := b.getLsbD 0

/-- The bit a left shift by one shifts out (R170). -/
def highBit (b : Byte) : Bool := b.getLsbD 7

end Sys2Proof.Machine
end

