-- ==== Sys2Proof/Machine/Operands.lean ====
section
/-! DEFINITION. The operand forms (spec/30_encoding.md R94): immediates taken as unsigned numbers, the shift source, the
address in `I`, the font address, decimal digits, register blocks and the key query. -/

namespace Sys2Proof.Machine

/-- `zext_16(nnn)` (R94). -/
def addrWord (nnn : Addr) : Word := nnn.setWidth 16

/-- A byte as a 16-bit number. -/
def byteWord (b : Byte) : Word := b.setWidth 16

/-- The register `8xy6` and `8xyE` shift (spec/42_alu.md R168, R170). -/
def State.shiftSource (s : State) (x y : Nibble) : Byte :=
  match s.params.shiftSrc with
  | .vx => s.reg x
  | .vy => s.reg y

/-- The address in `I` as an unbounded integer (spec/20_memory.md R65). -/
abbrev State.base (s : State) : Nat := s.i.toNat

/-- `FONT_BASE + 5 * d` for the digit `d` in the low four bits of `b` (spec/43_index_memory.md R192). -/
def fontAddress (p : Params) (b : Byte) : Word := BitVec.ofNat 16 (p.fontBase.toNat + 5 * (b.toNat % 16))

/-- The hundreds, tens and ones digit of `b`, one to a byte (spec/43_index_memory.md R193). -/
def decimalDigits (b : Byte) : List Byte :=
  [BitVec.ofNat 8 (b.toNat / 100), BitVec.ofNat 8 (b.toNat / 10 % 10), BitVec.ofNat 8 (b.toNat % 10)]

/-- `V[0]` to `V[x]`, lowest register first (spec/43_index_memory.md R194). -/
def State.regBlock (s : State) (x : Nibble) : List Byte := s.v.toList.take (x.toNat + 1)

/-- `V[i] <- MEM[a + i]` for the first `n` registers (spec/43_index_memory.md R195). -/
def loadBlock (m : Memory) (a : Nat) (v : Vector Byte 16) : Nat → Vector Byte 16
  | 0 => v
  | n + 1 => (loadBlock m a v n).setIfInBounds n (m.read (a + n))

/-- `KeyPressed(k)` (spec/45_keys_timers.md R230): the host's key state for `k` from 0 to 15, a free value above
(spec/92_eei_decisions.md D20; log 5). -/
def State.keyPressed (s : State) (k : Byte) : Bool :=
  if h : k.toNat < 16 then s.keys[k.toNat] else Config.unknownKey s.draws

/-- The state after a key query: a query the spec gives no answer to has used up a free value (log 5). -/
def State.afterQuery (s : State) (k : Byte) : State :=
  if k.toNat < 16 then s else { s with draws := s.draws + 1 }

end Sys2Proof.Machine
end

