-- ==== Sys2Proof/Machine/Alu.lean ====
section
/-! DEFINITION. Load-immediate, arithmetic, logic and random instructions (spec/42_alu.md R159 to R171). -/

namespace Sys2Proof.Machine

/-- `6xkk` LD Vx, kk (R160). -/
def execLdImm (x : Nibble) (kk : Byte) (s : State) : Result := .next (s.setReg x kk).advance

/-- `7xkk` ADD Vx, kk (R161): wraps, no flag. -/
def execAddImm (x : Nibble) (kk : Byte) (s : State) : Result := .next (s.setReg x (s.reg x + kk)).advance

/-- `8xy0` LD Vx, Vy (R162). -/
def execLdReg (x y : Nibble) (s : State) : Result := .next (s.setReg x (s.reg y)).advance

/-- `8xy1` OR Vx, Vy (R163). -/
def execOrReg (x y : Nibble) (s : State) : Result := .next (s.setReg x (s.reg x ||| s.reg y)).advance

/-- `8xy2` AND Vx, Vy (R164). -/
def execAndReg (x y : Nibble) (s : State) : Result := .next (s.setReg x (s.reg x &&& s.reg y)).advance

/-- `8xy3` XOR Vx, Vy (R165). -/
def execXorReg (x y : Nibble) (s : State) : Result := .next (s.setReg x (s.reg x ^^^ s.reg y)).advance

/-- `8xy4` ADD Vx, Vy (R166). -/
def execAddReg (x y : Nibble) (s : State) : Result :=
  .next (s.setWithFlag x (s.reg x + s.reg y) (flagByte (carry (s.reg x) (s.reg y)))).advance

/-- `8xy5` SUB Vx, Vy (R167). -/
def execSubReg (x y : Nibble) (s : State) : Result :=
  .next (s.setWithFlag x (s.reg x - s.reg y) (flagByte (greater (s.reg x) (s.reg y)))).advance

/-- `8xy6` SHR Vx, Vy (R168). -/
def execShr (x y : Nibble) (s : State) : Result :=
  .next (s.setWithFlag x (s.shiftSource x y >>> 1) (flagByte (lowBit (s.shiftSource x y)))).advance

/-- `8xy7` SUBN Vx, Vy (R169). -/
def execSubn (x y : Nibble) (s : State) : Result :=
  .next (s.setWithFlag x (s.reg y - s.reg x) (flagByte (greater (s.reg y) (s.reg x)))).advance

/-- `8xyE` SHL Vx, Vy (R170). -/
def execShl (x y : Nibble) (s : State) : Result :=
  .next (s.setWithFlag x (s.shiftSource x y <<< 1) (flagByte (highBit (s.shiftSource x y)))).advance

/-- `Cxkk` RND Vx, kk (R171): the random byte is a free value (log 6). -/
def execRnd (x : Nibble) (kk : Byte) (s : State) : Result :=
  .next ({ s with draws := s.draws + 1 }.setReg x (Config.randomByte s.draws &&& kk)).advance

end Sys2Proof.Machine
end

