-- ==== Sys2Proof/Machine/Sprite.lean ====
section
/-! DEFINITION. The XOR sprite compositor of `Dxyn` (spec/44_display.md R211, R212), with the loops of R211. -/

namespace Sys2Proof.Machine

/-- `DISP[row][col]`. -/
def Display.pixel (d : Display) (row : Fin 32) (col : Fin 64) : Bool := d[row][col]

/-- `DISP[row][col] <- b`. -/
def Display.setPixel (d : Display) (row : Fin 32) (col : Fin 64) (b : Bool) : Display :=
  d.set row (d[row].set col b)

/-- One turn of the inner loop of R211 on the display and the collision flag: XOR the sprite bit `b` onto a pixel; a
transition from 1 to 0 is a collision. -/
def plot (p : Display × Bool) (row : Fin 32) (col : Fin 64) (b : Bool) : Display × Bool :=
  match p with
  | (d, collision) => (d.setPixel row col (d.pixel row col ^^ b), collision || (d.pixel row col && b))

/-- The first `n` columns of one sprite row `b`, with its left edge at column `x0`: bit 7 is the leftmost pixel, and
columns wrap modulo 64. -/
def drawRow (b : Byte) (row : Fin 32) (x0 : Nat) (p : Display × Bool) : Nat → Display × Bool
  | 0 => p
  | c + 1 => plot (drawRow b row x0 p c) row (Fin.ofNat 64 (x0 + c)) (b.getLsbD (7 - c))

/-- The first `n` rows of the sprite at address `a`, with its top left corner at `x0`, `y0`: rows wrap modulo 32. -/
def drawSprite (m : Memory) (a x0 y0 : Nat) (p : Display × Bool) : Nat → Display × Bool
  | 0 => p
  | r + 1 => drawRow (m.read (a + r)) (Fin.ofNat 32 (y0 + r)) x0 (drawSprite m a x0 y0 p r) 8

/-- The display and the collision flag after `Dxyn`: the coordinates are the values of `Vx` and `Vy` before the step. -/
def State.sprite (s : State) (x y n : Nibble) : Display × Bool :=
  drawSprite s.mem s.i.toNat (s.reg x).toNat (s.reg y).toNat (s.disp, false) n.toNat

end Sys2Proof.Machine
end

