-- ==== Sys2Proof/Machine/Display.lean ====
section
/-! DEFINITION. The display instructions (spec/44_display.md R210 to R214). -/

namespace Sys2Proof.Machine

/-- `00E0` CLS (R210). -/
def execCls (s : State) : Result :=
  sending s (.next ({ s with disp := Display.blank }.emit .clear).advance)

/-- The effects of a `Dxyn` that raises nothing, from the new display and the collision flag: display, `VF`, message, PC
(R211). -/
def State.paint (s : State) (p : Display × Bool) : State :=
  (({ s with disp := p.1 }.setReg vf (flagByte p.2)).emit (.draw p.1)).advance

/-- `Dxyn` DRW Vx, Vy, n (R211): no sprite byte is read when n = 0, and `MemoryBounds` comes before `OutputSendFailure`
(spec/60_exceptions.md R259). -/
def execDrw (x y n : Nibble) (s : State) : Result :=
  if n = 0 then sending s (.next (s.paint (s.sprite x y n)))
  else accessing (s.base + n.toNat - 1) s (sending s (.next (s.paint (s.sprite x y n))))

end Sys2Proof.Machine
end

