-- ==== Sys2Proof/Machine/Flow.lean ====
section
/-! DEFINITION. Control transfer and skips (spec/41_flow.md R140 to R147). -/

namespace Sys2Proof.Machine

/-- `00EE` RET (R140). -/
def execRet (s : State) : Result :=
  if s.sp.val = 0 then fatal .stackUnderflow s else .next (s.drop.jump s.top)

/-- `1nnn` JP nnn (R141). -/
def execJp (nnn : Addr) (s : State) : Result := .next (s.jump (addrWord nnn))

/-- `2nnn` CALL nnn (R142). -/
def execCall (nnn : Addr) (s : State) : Result :=
  if h : s.sp.val < 16 then .next ((s.push (s.pc + 2) h).jump (addrWord nnn)) else fatal .stackOverflow s

/-- `Bnnn` JP V0, nnn (R143). -/
def execJpV0 (nnn : Addr) (s : State) : Result := .next (s.jump (addrWord nnn + byteWord (s.reg 0)))

/-- `3xkk` SE Vx, kk (R144). -/
def execSeImm (x : Nibble) (kk : Byte) (s : State) : Result := .next (s.skipIf (s.reg x == kk))

/-- `4xkk` SNE Vx, kk (R145). -/
def execSneImm (x : Nibble) (kk : Byte) (s : State) : Result := .next (s.skipIf (s.reg x != kk))

/-- `5xy0` SE Vx, Vy (R146). -/
def execSeReg (x y : Nibble) (s : State) : Result := .next (s.skipIf (s.reg x == s.reg y))

/-- `9xy0` SNE Vx, Vy (R147). -/
def execSneReg (x y : Nibble) (s : State) : Result := .next (s.skipIf (s.reg x != s.reg y))

end Sys2Proof.Machine
end

