-- ==== Sys2Proof/Machine/Index.lean ====
section
/-! DEFINITION. Index register and memory transfers (spec/43_index_memory.md R190 to R195). -/

namespace Sys2Proof.Machine

/-- `Annn` LD I, nnn (R190). -/
def execLdI (nnn : Addr) (s : State) : Result := .next { s with i := addrWord nnn }.advance

/-- `Fx1E` ADD I, Vx (R191): wraps at 16 bits, no flag. -/
def execAddI (x : Nibble) (s : State) : Result := .next { s with i := s.i + byteWord (s.reg x) }.advance

/-- `Fx29` LD F, Vx (R192). -/
def execLdF (x : Nibble) (s : State) : Result := .next { s with i := fontAddress s.params (s.reg x) }.advance

/-- `Fx33` LD B, Vx (R193). -/
def execLdB (x : Nibble) (s : State) : Result :=
  accessing (s.base + 2) s (.next { s with mem := s.mem.writeBytes s.base (decimalDigits (s.reg x)) }.advance)

/-- `Fx55` LD [I], Vx (R194): `I` is unchanged. -/
def execStoreRegs (x : Nibble) (s : State) : Result :=
  accessing (s.base + x.toNat) s (.next { s with mem := s.mem.writeBytes s.base (s.regBlock x) }.advance)

/-- `Fx65` LD Vx, [I] (R195): `I` advances by x + 1. -/
def execLoadRegs (x : Nibble) (s : State) : Result :=
  accessing (s.base + x.toNat) s
    (.next { s with v := loadBlock s.mem s.base s.v (x.toNat + 1), i := s.i + x.setWidth 16 + 1 }.advance)

end Sys2Proof.Machine
end

