-- ==== Sys2Proof/Machine/Keys.lean ====
section
/-! DEFINITION. Keypad and timer instructions (spec/45_keys_timers.md R230 to R236). -/

namespace Sys2Proof.Machine

/-- `Ex9E` SKP Vx (R231): the key number is the value of Vx. -/
def execSkp (x : Nibble) (s : State) : Result :=
  .next ((s.afterQuery (s.reg x)).skipIf (s.keyPressed (s.reg x)))

/-- `ExA1` SKNP Vx (R232). -/
def execSknp (x : Nibble) (s : State) : Result :=
  .next ((s.afterQuery (s.reg x)).skipIf (!s.keyPressed (s.reg x)))

/-- `Fx0A` LD Vx, K (R233): with a key press reported, the key goes to Vx and the report is used up; with none, the engine
holds: nothing changes and `PC` stays at the `Fx0A` (log 2). -/
def execLdVxK (x : Nibble) (s : State) : Result :=
  match s.keyReport with
  | some k => .next ({ s with keyReport := none }.setReg x (k.setWidth 8)).advance
  | none => .next s

/-- `Fx07` LD Vx, DT (R234). -/
def execLdVxDt (x : Nibble) (s : State) : Result := .next (s.setReg x s.dt).advance

/-- `Fx15` LD DT, Vx (R235). -/
def execLdDtVx (x : Nibble) (s : State) : Result := .next { s with dt := s.reg x }.advance

/-- `Fx18` LD ST, Vx (R236). -/
def execLdStVx (x : Nibble) (s : State) : Result := .next { s with st := s.reg x }.advance

end Sys2Proof.Machine
end

