-- ==== Sys2Proof/Machine/Engine.lean ====
section
/-! DEFINITION. The engine's turn (spec/40_cycle.md R121). -/

namespace Sys2Proof.Machine

/-- The instruction at `PC`: `none` when the fetch is out of range or the word is no instruction. -/
def State.current (s : State) : Option Instr := s.fetch.bind decodeWord

/-- Fetch, decode, execute (R121), with the priority of spec/60_exceptions.md R259: `MemoryBounds` on the fetch, then
`UnrecognizedOpcode`, then the instruction's own conditions. -/
def fetchExecute (s : State) : Result :=
  match s.fetch with
  | none => fatal .memoryBounds s
  | some w =>
    match decodeWord w with
    | none => fatal .unrecognizedOpcode s
    | some i => exec i s

/-- A halted engine has no step (R121; log 1); any other fetches and executes, and counts as executing from here on
(log 10). -/
def engineTurn (s : State) : Result :=
  if s.halt then .fault (.halted s.cause) else fetchExecute { s with executing := true }

/-- The engine holds: it is not halted, the word at `PC` is an `Fx0A`, and no key press has been reported to it
(spec/10_state.md R33). -/
def State.holding (s : State) : Bool :=
  !s.halt && s.keyReport.isNone &&
    match s.current with
    | some (.ldVxK _) => true
    | _ => false

end Sys2Proof.Machine
end

