-- ==== Sys2Proof/Machine/HostActions.lean ====
section
/-! DEFINITION. What the ticker and the host do to the engine between its steps (spec/70_reset_and_hazards.md R296). -/

namespace Sys2Proof.Machine

/-- A timer stops at 0 (spec/45_keys_timers.md R237). -/
def countDown (t : Byte) : Byte := if t = 0 then 0 else t - 1

/-- `Tick` (R237). -/
def State.tick (s : State) : State := { s with dt := countDown s.dt, st := countDown s.st }

/-- `Reset` (spec/70_reset_and_hazards.md R292): `PC` and `SP` only. The engine no longer executes (R294). -/
def State.warmReset (s : State) : State := { s with pc := 0x200, sp := 0, executing := false }

/-- `PowerOn` (spec/70_reset_and_hazards.md R290) for the engine. The key state and the turns to come are the host's and
stay, and so does the counter of free values (log 15). -/
def State.powerOn (p : Params) (s : State) : State :=
  { State.reset with mem := powerOnMemory p, params := p, keys := s.keys, agenda := s.agenda, draws := s.draws }

/-- `HALT` and `CAUSE` are written at most once between two power-ons (spec/60_exceptions.md R253), so a halted engine keeps
its cause when a load is rejected (log 10). -/
def State.rejectProgram (s : State) : State := if s.halt then s else s.raise .programTooLarge

/-- `Load` (spec/70_reset_and_hazards.md R294). -/
def State.load (program : List Byte) (s : State) : State :=
  if programFits program then { s with mem := s.mem.writeBytes 0x200 program } else s.rejectProgram

/-- The host presses or releases a key (spec/45_keys_timers.md R230). -/
def State.setKey (k : Nibble) (down : Bool) (s : State) : State := { s with keys := s.keys.set k.toNat down k.isLt }

/-- `sink_open <- 0` (spec/44_display.md R214). -/
def State.closeSink (s : State) : State := { s with sinkOpen := false }

/-- A load is admitted only while the engine is not executing (R294, R296; log 10). -/
def loadTurn (program : List Byte) (s : State) : Result :=
  if s.executing then .refused .loadWhileExecuting else .next (s.load program)

/-- A power-on needs a font that lies below 0x200 (spec/43_index_memory.md R192; log 15). -/
def powerOnTurn (p : Params) (s : State) : Result :=
  if p.wellFormed then .next (s.powerOn p) else .refused .fontOutOfRange

/-- A reported key press completes the `Fx0A` the engine holds in (spec/70_reset_and_hazards.md R296; log 11). -/
def reportKeyTurn (k : Nibble) (s : State) : Result :=
  if s.holding then engineTurn { s with keyReport := some k } else .refused .keyReportNotAwaited

/-- One turn of whoever moves. -/
def takeTurn (t : Turn) (s : State) : Result :=
  match t with
  | .engine => engineTurn s
  | .tick => .next s.tick
  | .warmReset => .next s.warmReset
  | .powerOn p => powerOnTurn p s
  | .load program => loadTurn program s
  | .setKey k down => .next (s.setKey k down)
  | .reportKey k => reportKeyTurn k s
  | .closeSink => .next s.closeSink
  | .consumeOutput => .next s
  | .readPorts => .next s

/-- What the host reads from `ST` (spec/45_keys_timers.md R238): the audio collaborator sounds a tone while it is not 0. -/
def State.soundOn (s : State) : Bool := s.st != 0

/-- The code of a fatal condition in `CAUSE` (spec/60_exceptions.md R251). -/
def Cause.code : Cause → BitVec 3
  | .none => 0
  | .unrecognizedOpcode => 1
  | .stackOverflow => 2
  | .stackUnderflow => 3
  | .outputSendFailure => 4
  | .memoryBounds => 5
  | .programTooLarge => 6

end Sys2Proof.Machine
end

