-- ==== Sys2Proof/Machine/Step.lean ====
section
/-! DEFINITION. One step of the machine: the turn the agenda names next, or the engine's when it names none (log 3). -/

namespace Sys2Proof.Machine

def step (s : State) : Host.Outcome State Fault Refusal :=
  match s.agenda with
  | [] => engineTurn s
  | t :: rest => takeTurn t { s with agenda := rest }

/-- Where the engine fetches next, or the entry address when `PC` lies where no fetch succeeds. -/
def State.fetchPlace (s : State) : Word := if s.pc.toNat + 1 ≤ topAddress then s.pc else 0x200

/-- `s` with an instruction stored where the next step fetches, the engine running and to move (log 12). -/
def State.withFetchWord (s : State) (nbits w : Nat) : State :=
  { s with
    mem := s.mem.writeBytes s.fetchPlace.toNat (tableBytes nbits w), pc := s.fetchPlace, agenda := [], halt := false,
    cause := .none }

end Sys2Proof.Machine
end

