-- ==== Sys2Proof/Safety.lean ====
section
/-! DEFINITION. The terms the claims are stated in: what a step leaves unchanged, a safe state, the invariant of the
machine, and the sprite rule of spec/44_display.md pixel by pixel. -/

namespace Sys2Proof.Machine

/-- The pieces of State. -/
inductive Part where
  | v | i | pc | sp | stack | mem | dt | st | disp | halt | cause | out
  | params | sinkOpen | keys | keyReport | agenda | draws | executing
deriving DecidableEq, Repr

/-- `t` has this piece as `s` has it. Memory is compared byte by byte. -/
def Part.Same (p : Part) (s t : State) : Prop :=
  match p with
  | .v => ∀ x, t.reg x = s.reg x
  | .i => t.i = s.i
  | .pc => t.pc = s.pc
  | .sp => t.sp = s.sp
  | .stack => t.stack = s.stack
  | .mem => ∀ a, t.mem.read a = s.mem.read a
  | .dt => t.dt = s.dt
  | .st => t.st = s.st
  | .disp => t.disp = s.disp
  | .halt => t.halt = s.halt
  | .cause => t.cause = s.cause
  | .out => t.out = s.out
  | .params => t.params = s.params
  | .sinkOpen => t.sinkOpen = s.sinkOpen
  | .keys => t.keys = s.keys
  | .keyReport => t.keyReport = s.keyReport
  | .agenda => t.agenda = s.agenda
  | .draws => t.draws = s.draws
  | .executing => t.executing = s.executing

/-- Every piece of state is unchanged, but those listed. -/
def Frame (changed : List Part) (s t : State) : Prop := ∀ p, p ∉ changed → p.Same s t

/-- Every register is unchanged, but those listed. -/
def RegsKept (written : List Nibble) (s t : State) : Prop := ∀ y, y ∉ written → t.reg y = s.reg y

/-- `t` is `s` after the fatal condition `c` (spec/60_exceptions.md R252): `HALT` and `CAUSE` are written, nothing else. -/
def Raised (c : Cause) (s t : State) : Prop :=
  t.halt = true ∧ t.cause = c ∧ Frame [.halt, .cause] s t

/-- It is the engine's turn: nobody else is named before it (log 3). -/
def State.EngineMoves (s : State) (rest : List Turn) : Prop :=
  s.agenda = .engine :: rest ∨ (s.agenda = [] ∧ rest = [])

/-- No fatal condition has been taken: what every claim about a program has in its postcondition
(spec/60_exceptions.md R252). -/
def State.Safe (s : State) : Prop := s.halt = false

/-- `PC` and the stack hold only values that execution can give them (the list of values in spec/10_state.md R23). -/
def State.PcReachable (s : State) : Prop :=
  s.pc.toNat ≤ 0x10FE ∧ ∀ k : Fin 16, s.stack[k].toNat ≤ 0x1000

/-- The invariant of the machine. -/
structure State.Inv (s : State) : Prop where
  /-- Memory is in its canonical form (log 8). -/
  memory : s.mem.wf
  /-- `CAUSE` is `None` exactly while `HALT` is 0 (spec/60_exceptions.md R251). -/
  latch : s.halt = true ↔ s.cause ≠ .none
  /-- `PC` and the stack (spec/10_state.md R23). -/
  pc : s.PcReachable
  /-- The font lies below 0x200 (spec/43_index_memory.md R192). -/
  font : s.params.wellFormed = true
  /-- A reported key press does not outlive the `Fx0A` it completes (spec/45_keys_timers.md R233). -/
  report : s.keyReport = none

/-- The sprite bit that a `Dxyn` with `n` rows at address `a` and corner `x0`, `y0` lays on the pixel of row `r` and column
`c`: the sprite row and column that wrap onto it, if the sprite has them (spec/44_display.md R211). -/
def spriteBit (m : Memory) (a x0 y0 n : Nat) (r : Fin 32) (c : Fin 64) : Bool :=
  let dr := (r.val + 32 - y0 % 32) % 32
  let dc := (c.val + 64 - x0 % 64) % 64
  decide (dr < n) && decide (dc < 8) && (m.read (a + dr)).getLsbD (7 - dc)

/-- `PC` is 2 further on, modulo 65536 (spec/40_cycle.md R122). -/
def Advanced (s t : State) : Prop := t.pc.toNat = (s.pc.toNat + 2) % 0x10000

/-- `i` completes: `PC` moves by 4 if `c` holds and by 2 if not, and nothing else changes. -/
def SkipsIf (c : Bool) (i : Instr) (s : State) : Prop :=
  ∃ t, exec i s = .next t ∧ t.pc.toNat = (s.pc.toNat + if c then 4 else 2) % 0x10000 ∧ Frame [.pc] s t

/-- `i` completes: register `x` holds `value`, `PC` advances, and nothing else changes. -/
def Writes (i : Instr) (x : Nibble) (value : Nat) (s : State) : Prop :=
  ∃ t, exec i s = .next t ∧ (t.reg x).toNat = value ∧ RegsKept [x] s t ∧ Advanced s t ∧ Frame [.v, .pc] s t

/-- `i` completes: register `x` holds `value` unless it is `VF`, `VF` holds `flag` in any case, `PC` advances, and nothing
else changes. -/
def WritesWithFlag (i : Instr) (x : Nibble) (value flag : Nat) (s : State) : Prop :=
  ∃ t, exec i s = .next t ∧ (x ≠ vf → (t.reg x).toNat = value) ∧ (t.reg vf).toNat = flag ∧ RegsKept [x, vf] s t ∧
    Advanced s t ∧ Frame [.v, .pc] s t

/-- `i` takes the fatal condition `c`. -/
def Raises (c : Cause) (i : Instr) (s : State) : Prop := ∃ t, exec i s = .next t ∧ Raised c s t

/-- The next turn is a power-on. -/
def State.PowersOn (s : State) : Prop := ∃ p rest, s.agenda = .powerOn p :: rest

/-- `s'` is `s` but for stack entries that are not live (spec/10_state.md R25). -/
def SameLive (s s' : State) : Prop :=
  s' = { s with stack := s'.stack } ∧ ∀ k : Fin 16, k.val < s.sp.val → s'.stack[k] = s.stack[k]

/-- Register `y` is a destination that the instruction names: `x`, or `V0` to `Vx` for `Fx65`. -/
def destination (i : Instr) (y : Nibble) : Bool :=
  match i with
  | .cls | .ret | .jp _ | .call _ | .seImm _ _ | .sneImm _ _ | .seReg _ _ | .sneReg _ _ | .ldI _ | .jpV0 _ | .drw _ _ _
  | .skp _ | .sknp _ | .ldDtVx _ | .ldStVx _ | .addI _ | .ldF _ | .ldB _ | .storeRegs _ => false
  | .ldImm x _ | .addImm x _ | .ldReg x _ | .orReg x _ | .andReg x _ | .xorReg x _ | .addReg x _ | .subReg x _ | .shr x _
  | .subn x _ | .shl x _ | .rnd x _ | .ldVxDt x | .ldVxK x => y == x
  | .loadRegs x => decide (y.toNat ≤ x.toNat)

/-- The instructions that write `VF` as a side effect (spec/10_state.md R21). -/
def setsFlag (i : Instr) : Bool :=
  match i with
  | .addReg _ _ | .subReg _ _ | .shr _ _ | .subn _ _ | .shl _ _ | .drw _ _ _ => true
  | .cls | .ret | .jp _ | .call _ | .seImm _ _ | .sneImm _ _ | .seReg _ _ | .ldImm _ _ | .addImm _ _ | .ldReg _ _
  | .orReg _ _ | .andReg _ _ | .xorReg _ _ | .sneReg _ _ | .ldI _ | .jpV0 _ | .rnd _ _ | .skp _ | .sknp _ | .ldVxDt _
  | .ldVxK _ | .ldDtVx _ | .ldStVx _ | .addI _ | .ldF _ | .ldB _ | .storeRegs _ | .loadRegs _ => false

/-- The messages an executed instruction sends, where `t` is the state it leaves (spec/44_display.md R213). -/
def messages (i : Instr) (t : State) : List Message :=
  match i with
  | .cls => [.clear]
  | .drw _ _ _ => [.draw t.disp]
  | .ret | .jp _ | .call _ | .seImm _ _ | .sneImm _ _ | .seReg _ _ | .ldImm _ _ | .addImm _ _ | .ldReg _ _ | .orReg _ _
  | .andReg _ _ | .xorReg _ _ | .addReg _ _ | .subReg _ _ | .shr _ _ | .subn _ _ | .shl _ _ | .sneReg _ _ | .ldI _
  | .jpV0 _ | .rnd _ _ | .skp _ | .sknp _ | .ldVxDt _ | .ldVxK _ | .ldDtVx _ | .ldStVx _ | .addI _ | .ldF _ | .ldB _
  | .storeRegs _ | .loadRegs _ => []

/-- The unrecognized words, by the digits of the word (the table of spec/30_encoding.md R98). -/
def unrecognizedWord (w : Nat) : Prop :=
  (w / 0x1000 = 0x0 ∧ w ≠ 0x00E0 ∧ w ≠ 0x00EE) ∨
  (w / 0x1000 = 0x5 ∧ w % 0x10 ≠ 0) ∨
  (w / 0x1000 = 0x8 ∧ w % 0x10 ∉ [0x0, 0x1, 0x2, 0x3, 0x4, 0x5, 0x6, 0x7, 0xE]) ∨
  (w / 0x1000 = 0x9 ∧ w % 0x10 ≠ 0) ∨
  (w / 0x1000 = 0xE ∧ w % 0x100 ∉ [0x9E, 0xA1]) ∨
  (w / 0x1000 = 0xF ∧ w % 0x100 ∉ [0x07, 0x0A, 0x15, 0x18, 0x1E, 0x29, 0x33, 0x55, 0x65])

end Sys2Proof.Machine
end

