-- ==== Sys2Proof/Certificates/Slice0/Obligations.lean ====
section
/-! DEFINITION. The statements about the machine, from the numbered rules of spec/. Each docstring cites what it formalises
and says where it rests on a decision of the spec or of the model. `PC + 2` and `PC + 4` are taken modulo 65536
(spec/92_eei_decisions.md D5). -/

open Sys2Proof Sys2Proof.Machine

/-! ### Encoding -/

/-- Decoding the two bytes of any instruction gives the instruction back, with every operand at every value, and leaves the
bytes after it (R92, R96, R102). -/
def Obligations.DecodeOfEncode : Prop :=
  ∀ (i : Instr) (rest : List Byte), decode (encode i ++ rest) = .instr i rest

/-- Each word has one meaning: bytes that decode are the bytes of the instruction they decode to, so no bit is ignored
(R100). -/
def Obligations.EncodeOfDecode : Prop :=
  ∀ (hi lo : Byte) (rest left : List Byte) (i : Instr),
    decode (hi :: lo :: rest) = .instr i left → encode i = [hi, lo] ∧ left = rest

/-- A word is an instruction of a row exactly when `(w AND mask) = match` for that row (R96). -/
def Obligations.RowMatchesExactly : Prop :=
  ∀ (w : Word) (j : Instr),
    (∃ i, decodeWord w = some i ∧ tableRow i = tableRow j) ↔ w &&& (tableRow j).2 = (tableRow j).1

/-- The words that are no instruction are exactly those of the table of R98, a reading the spec marks as its own decision
D8. -/
def Obligations.UnrecognizedWords : Prop :=
  ∀ w : Word, decodeWord w = none ↔ unrecognizedWord w.toNat

/-- Words that spec/95_test_vectors.md writes out with their meaning, one or more for each of the sixteen classes, decode as it
says: the table V-DEC, and for the classes 4, 6, 7, A and C, which that table leaves out, F17, A44, A46, M1 and A49. -/
def Obligations.SpecWordsDecode : Prop :=
  decode [0x00, 0xE0] = .instr .cls [] ∧ decode [0x00, 0xEE] = .instr .ret [] ∧
  decode [0x1A, 0xBC] = .instr (.jp 0xABC) [] ∧ decode [0x2F, 0xFF] = .instr (.call 0xFFF) [] ∧
  decode [0x3A, 0x7F] = .instr (.seImm 0xA 0x7F) [] ∧ decode [0x43, 0x2A] = .instr (.sneImm 3 0x2A) [] ∧
  decode [0x51, 0x20] = .instr (.seReg 1 2) [] ∧ decode [0x60, 0x0A] = .instr (.ldImm 0 0x0A) [] ∧
  decode [0x72, 0x02] = .instr (.addImm 2 0x02) [] ∧ decode [0xA2, 0xF0] = .instr (.ldI 0x2F0) [] ∧
  decode [0xC3, 0x0F] = .instr (.rnd 3 0x0F) [] ∧
  decode [0x8A, 0xB4] = .instr (.addReg 0xA 0xB) [] ∧ decode [0x8A, 0xBE] = .instr (.shl 0xA 0xB) [] ∧
  decode [0x91, 0x20] = .instr (.sneReg 1 2) [] ∧ decode [0xB1, 0x23] = .instr (.jpV0 0x123) [] ∧
  decode [0xD1, 0x2F] = .instr (.drw 1 2 15) [] ∧ decode [0xE1, 0x9E] = .instr (.skp 1) [] ∧
  decode [0xF1, 0x65] = .instr (.loadRegs 1) [] ∧ decode [0x00, 0x00] = .reject (.unrecognizedOpcode 0x0000) ∧
  decode [0x51, 0x21] = .reject (.unrecognizedOpcode 0x5121) ∧
  decode [0x8A, 0xB8] = .reject (.unrecognizedOpcode 0x8AB8) ∧
  decode [0xF1, 0x75] = .reject (.unrecognizedOpcode 0xF175)

/-! ### The step -/

/-- When it is the engine's turn, it is not halted, both bytes at `PC` lie in memory and they decode to `i`, the step is `i`
executed, with the turn used up and the engine marked as executing (R121; the turn and the mark are the model's, log 3
and log 10). -/
def Obligations.StepRunsDecodedInstruction : Prop :=
  ∀ (s : State) (rest : List Turn) (i : Instr), s.EngineMoves rest → s.halt = false → s.pc.toNat + 1 ≤ 0xFFF →
    decode [s.mem.read s.pc.toNat, s.mem.read (s.pc.toNat + 1)] = .instr i [] →
    step s = exec i { s with agenda := rest, executing := true }

/-- A fetch at 0xFFF or above is `MemoryBounds`, whatever the byte at 0xFFF is (R64, R259; the fault instead of a wrap is
the spec's decision D3 and D4). -/
def Obligations.FetchOutsideMemory : Prop :=
  ∀ (s : State) (rest : List Turn), s.EngineMoves rest → s.halt = false → 0xFFF ≤ s.pc.toNat →
    ∃ t, step s = .next t ∧ t.halt = true ∧ t.cause = .memoryBounds ∧ t.agenda = rest ∧
      Frame [.halt, .cause, .agenda, .executing] s t

/-- A word that is no instruction is `UnrecognizedOpcode`; nothing else changes and `PC` stays (R98, R252; decisions D8 and
D23 of the spec). -/
def Obligations.UnrecognizedWordIsFatal : Prop :=
  ∀ (s : State) (rest : List Turn), s.EngineMoves rest → s.halt = false → s.pc.toNat + 1 ≤ 0xFFF →
    unrecognizedWord ((s.mem.read s.pc.toNat).toNat * 256 + (s.mem.read (s.pc.toNat + 1)).toNat) →
    ∃ t, step s = .next t ∧ t.halt = true ∧ t.cause = .unrecognizedOpcode ∧ t.agenda = rest ∧
      Frame [.halt, .cause, .agenda, .executing] s t

/-- A halted engine has no step (R121, R253): its turn is the fault that names its cause, which is the model's choice
(log 1). -/
def Obligations.HaltedEngineHasNoStep : Prop :=
  ∀ (s : State) (rest : List Turn), s.EngineMoves rest → s.halt = true → step s = .fault (.halted s.cause)

/-- No instruction ends in a fault or a refusal, in any state and with any operands. That a fatal condition and the hold in
`Fx0A`, which R121 lists beside the next state, are next states too is the model's choice (log 1, log 2). -/
def Obligations.EveryInstructionAnswersNext : Prop :=
  ∀ (i : Instr) (s : State), ∃ t, exec i s = .next t

/-! ### Control flow -/

/-- JP nnn (R141), for every nnn: flags, stack and all else are untouched. What the fetch at nnn then does is the next step's
(StepRunsDecodedInstruction, FetchOutsideMemory). -/
def Obligations.JumpResult : Prop :=
  ∀ (nnn : Addr) (s : State), ∃ t, exec (.jp nnn) s = .next t ∧ t.pc.toNat = nnn.toNat ∧ Frame [.pc] s t

/-- JP V0, nnn (R143): the sum is not reduced to 12 bits, a decision of the spec (D30). -/
def Obligations.JumpOffsetResult : Prop :=
  ∀ (nnn : Addr) (s : State), ∃ t, exec (.jpV0 nnn) s = .next t ∧ t.pc.toNat = nnn.toNat + (s.reg 0).toNat ∧
    Frame [.pc] s t

/-- CALL nnn (R142): with room on the stack the address after the call is pushed (decision D6 of the spec); with 16 live
entries it is `StackOverflow` and nothing else changes (R252, decision D23). -/
def Obligations.CallResult : Prop :=
  ∀ (nnn : Addr) (s : State),
    (∀ h : s.sp.val < 16, ∃ t, exec (.call nnn) s = .next t ∧ t.pc.toNat = nnn.toNat ∧ t.sp.val = s.sp.val + 1 ∧
      t.stack[s.sp.val].toNat = (s.pc.toNat + 2) % 0x10000 ∧
      (∀ k : Fin 16, k.val ≠ s.sp.val → t.stack[k] = s.stack[k]) ∧ Frame [.pc, .sp, .stack] s t) ∧
    (s.sp.val = 16 → Raises .stackOverflow (.call nnn) s)

/-- RET (R140): the newest entry goes to `PC`, `SP` falls by one and no entry changes; with no entry it is
`StackUnderflow` and nothing else changes. -/
def Obligations.ReturnResult : Prop :=
  ∀ s : State,
    (∀ h : 0 < s.sp.val, ∃ t, exec .ret s = .next t ∧ t.pc = s.stack[s.sp.val - 1]'(by have := s.sp.isLt; omega) ∧
      t.sp.val + 1 = s.sp.val ∧ Frame [.pc, .sp] s t) ∧
    (s.sp.val = 0 → Raises .stackUnderflow .ret s)

/-- A call whose target holds an `00EE`, and then that `00EE`, bring `PC` back to the instruction after the call and the stack
to its depth, for every target up to 0xFFE; of the stack only the entry that is dead again has changed
(spec/95_test_vectors.md S5, conflicts C2 and C12; decision D6 of the spec). -/
def Obligations.CallThenReturn : Prop :=
  ∀ (s : State) (nnn : Addr), s.agenda = [] → s.halt = false → s.sp.val < 16 → s.current = some (.call nnn) →
    nnn.toNat ≤ 0xFFE → s.mem.read nnn.toNat = 0x00 → s.mem.read (nnn.toNat + 1) = 0xEE →
    ∃ t u, step s = .next t ∧ step t = .next u ∧ u.pc.toNat = s.pc.toNat + 2 ∧
      (∀ k : Fin 16, k.val ≠ s.sp.val → u.stack[k] = s.stack[k]) ∧ Frame [.pc, .stack, .executing] s u

/-- The four skips on registers and immediates (R144, R145, R146, R147); the modulus of `PC` is the spec's decision D5
(log 19). -/
def Obligations.SkipResults : Prop :=
  ∀ (x y : Nibble) (kk : Byte) (s : State),
    SkipsIf (decide (s.reg x = kk)) (.seImm x kk) s ∧ SkipsIf (decide (s.reg x ≠ kk)) (.sneImm x kk) s ∧
    SkipsIf (decide (s.reg x = s.reg y)) (.seReg x y) s ∧ SkipsIf (decide (s.reg x ≠ s.reg y)) (.sneReg x y) s

/-- A jump to its own address repeats the state (R126, R141); only the model's mark that the engine executes is set
(log 10). -/
def Obligations.JumpToItselfRepeats : Prop :=
  ∀ (s : State) (nnn : Addr), s.agenda = [] → s.halt = false → s.current = some (.jp nnn) → nnn.toNat = s.pc.toNat →
    ∃ t, step s = .next t ∧ Frame [.executing] s t

/-! ### Arithmetic, logic, random -/

/-- LD Vx, kk and ADD Vx, kk and LD Vx, Vy (R160, R161, R162): no flag is set. For the two loads that is the spec's decision
D12 (log 17), and the modulus of `PC` is its decision D5 (log 19). -/
def Obligations.LoadAndAddResults : Prop :=
  ∀ (x y : Nibble) (kk : Byte) (s : State),
    Writes (.ldImm x kk) x kk.toNat s ∧ Writes (.addImm x kk) x (((s.reg x).toNat + kk.toNat) % 256) s ∧
    Writes (.ldReg x y) x (s.reg y).toNat s

/-- OR, AND, XOR (R163, R164, R165); that `VF` is unchanged is the spec's decision D12. -/
def Obligations.LogicResults : Prop :=
  ∀ (x y : Nibble) (s : State),
    Writes (.orReg x y) x ((s.reg x).toNat ||| (s.reg y).toNat) s ∧
    Writes (.andReg x y) x ((s.reg x).toNat &&& (s.reg y).toNat) s ∧
    Writes (.xorReg x y) x ((s.reg x).toNat ^^^ (s.reg y).toNat) s

/-- ADD Vx, Vy (R166): the wrapped sum, and the carry in `VF`; with x = 15 the carry remains (decision D10 of the spec). -/
def Obligations.AddResult : Prop :=
  ∀ (x y : Nibble) (s : State),
    WritesWithFlag (.addReg x y) x (((s.reg x).toNat + (s.reg y).toNat) % 256)
      (if (s.reg x).toNat + (s.reg y).toNat > 255 then 1 else 0) s

/-- SUB and SUBN (R167, R169): the wrapped difference, and `VF` = 1 exactly when the minuend is strictly greater. The
strict rule for SUBN is the spec's decision D11, the flag at x = 15 its decision D10. -/
def Obligations.SubtractResults : Prop :=
  ∀ (x y : Nibble) (s : State),
    WritesWithFlag (.subReg x y) x (((s.reg x).toNat + 256 - (s.reg y).toNat) % 256)
      (if (s.reg x).toNat > (s.reg y).toNat then 1 else 0) s ∧
    WritesWithFlag (.subn x y) x (((s.reg y).toNat + 256 - (s.reg x).toNat) % 256)
      (if (s.reg y).toNat > (s.reg x).toNat then 1 else 0) s

/-- SHR and SHL (R168, R170) for both settings of `SHIFT_SRC` (decision D9 of the spec; D10 at x = 15): one bit, and the bit
shifted out in `VF`. -/
def Obligations.ShiftResults : Prop :=
  ∀ (x y : Nibble) (q : Byte) (s : State), (q = if s.params.shiftSrc = .vx then s.reg x else s.reg y) →
    WritesWithFlag (.shr x y) x (q.toNat / 2) (q.toNat % 2) s ∧
    WritesWithFlag (.shl x y) x (q.toNat * 2 % 256) (q.toNat / 128) s

/-- RND Vx, kk (R171): the next free byte (decision D22 of the spec, log 6) AND kk. It holds for every value of that byte;
what is known of the result is that it has no bit outside kk. -/
def Obligations.RandomResult : Prop :=
  ∀ (x : Nibble) (kk : Byte) (s : State), ∃ t, exec (.rnd x kk) s = .next t ∧
    t.reg x = (Config.randomByte s.draws &&& kk) ∧ t.reg x &&& ~~~kk = 0 ∧ t.draws = s.draws + 1 ∧
    RegsKept [x] s t ∧ Advanced s t ∧ Frame [.v, .pc, .draws] s t

/-! ### Index register and memory -/

/-- LD I, nnn (R190); the modulus of `PC` is the spec's decision D5 (log 19). -/
def Obligations.LoadIndexResult : Prop :=
  ∀ (nnn : Addr) (s : State), ∃ t, exec (.ldI nnn) s = .next t ∧ t.i.toNat = nnn.toNat ∧ Advanced s t ∧
    Frame [.i, .pc] s t

/-- ADD I, Vx (R191; no flag, decision D12) and LD F, Vx (R192; the font layout and the low four bits are the spec's
decision D14), for every `FONT_BASE`. -/
def Obligations.IndexArithmeticResults : Prop :=
  ∀ (x : Nibble) (s : State),
    (∃ t, exec (.addI x) s = .next t ∧ t.i.toNat = (s.i.toNat + (s.reg x).toNat) % 0x10000 ∧ Advanced s t ∧
      Frame [.i, .pc] s t) ∧
    (∃ t, exec (.ldF x) s = .next t ∧ t.i.toNat = s.params.fontBase.toNat + 5 * ((s.reg x).toNat % 16) ∧
      Advanced s t ∧ Frame [.i, .pc] s t)

/-- LD B, Vx (R193): three decimal digits at `I`, `I + 1`, `I + 2`; no other byte changes. The range of `I` is that of the
spec's decision D3. -/
def Obligations.DecimalStoreResult : Prop :=
  ∀ (x : Nibble) (s : State), s.mem.wf → s.base + 2 ≤ 0xFFF → ∃ t, exec (.ldB x) s = .next t ∧
    (t.mem.read s.base).toNat = (s.reg x).toNat / 100 ∧
    (t.mem.read (s.base + 1)).toNat = (s.reg x).toNat / 10 % 10 ∧
    (t.mem.read (s.base + 2)).toNat = (s.reg x).toNat % 10 ∧
    (∀ a, a < s.base ∨ s.base + 2 < a → t.mem.read a = s.mem.read a) ∧ Advanced s t ∧ Frame [.mem, .pc] s t

/-- LD [I], Vx (R194): `V0` to `Vx` at `I` to `I + x`; no other byte changes, and `I` is unchanged, the spec's decision
D13. -/
def Obligations.RegisterStoreResult : Prop :=
  ∀ (x : Nibble) (s : State), s.mem.wf → s.base + x.toNat ≤ 0xFFF → ∃ t, exec (.storeRegs x) s = .next t ∧
    (∀ k : Nibble, k.toNat ≤ x.toNat → t.mem.read (s.base + k.toNat) = s.reg k) ∧
    (∀ a, a < s.base ∨ s.base + x.toNat < a → t.mem.read a = s.mem.read a) ∧ Advanced s t ∧ Frame [.mem, .pc] s t

/-- LD Vx, [I] (R195): `V0` to `Vx` hold the bytes at `I` to `I + x`, the registers above keep their values, and `I`
advances by x + 1. The range of `I` is that of the spec's decision D3. -/
def Obligations.RegisterLoadResult : Prop :=
  ∀ (x : Nibble) (s : State), s.base + x.toNat ≤ 0xFFF → ∃ t, exec (.loadRegs x) s = .next t ∧
    (∀ k : Nibble, k.toNat ≤ x.toNat → t.reg k = s.mem.read (s.base + k.toNat)) ∧
    (∀ k : Nibble, x.toNat < k.toNat → t.reg k = s.reg k) ∧ t.i.toNat = s.i.toNat + x.toNat + 1 ∧ Advanced s t ∧
    Frame [.v, .i, .pc] s t

/-- An access above 0xFFF through `I` is `MemoryBounds` and changes nothing else (R251, R252; decisions D3 and D23 of the
spec). `Dxyn` raises it whether or not the sink is open (R259, decision D32). -/
def Obligations.AccessOutsideMemory : Prop :=
  ∀ (x y n : Nibble) (s : State),
    (0xFFF < s.base + 2 → Raises .memoryBounds (.ldB x) s) ∧
    (0xFFF < s.base + x.toNat → Raises .memoryBounds (.storeRegs x) s ∧ Raises .memoryBounds (.loadRegs x) s) ∧
    (0 < n.toNat → 0xFFF < s.base + n.toNat - 1 → Raises .memoryBounds (.drw x y n) s)

/-- A register block stored and loaded again comes back: the load that follows needs no new `I` (R298 item 7; decision D13
of the spec). -/
def Obligations.StoreThenLoadRestores : Prop :=
  ∀ (x : Nibble) (s : State), s.mem.wf → s.base + x.toNat ≤ 0xFFF →
    ∃ t u, exec (.storeRegs x) s = .next t ∧ exec (.loadRegs x) t = .next u ∧ (∀ y, u.reg y = s.reg y) ∧
      (∀ a, u.mem.read a = t.mem.read a) ∧ u.i.toNat = s.i.toNat + x.toNat + 1

/-- A store is seen by the next fetch (R72, decision D33 of the spec): a register block stored over the next word is what the
next step fetches and executes. -/
def Obligations.StoredCodeIsFetched : Prop :=
  ∀ (s : State) (x : Nibble) (i : Instr), s.agenda = [] → s.halt = false → s.mem.wf →
    s.current = some (.storeRegs x) → 1 ≤ x.toNat → s.base = s.pc.toNat + 2 → s.base + x.toNat ≤ 0xFFF →
    decode [s.reg 0, s.reg 1] = .instr i [] →
    ∃ t, step s = .next t ∧ t.pc.toNat = s.base ∧ step t = exec i t

/-! ### Display -/

/-- CLS with an open sink (R210): a blank display and one `Clear` message. -/
def Obligations.ClearResult : Prop :=
  ∀ s : State, s.sinkOpen = true → ∃ t, exec .cls s = .next t ∧ (∀ r c, t.disp.pixel r c = false) ∧
    t.out = s.out ++ [.clear] ∧ Advanced s t ∧ Frame [.disp, .out, .pc] s t

/-- DRW with an open sink and a sprite inside memory (R211): every pixel is XORed with the sprite bit that wraps onto it, bit
7 of a byte being the leftmost pixel (decision D15 of the spec); one `Draw` message with the new display; no register but
`VF` changes. With n = 0 nothing is drawn wherever `I` points (decision D16). -/
def Obligations.DrawResult : Prop :=
  ∀ (x y n : Nibble) (s : State), s.sinkOpen = true → (n.toNat = 0 ∨ s.base + n.toNat - 1 ≤ 0xFFF) →
    ∃ t, exec (.drw x y n) s = .next t ∧
      (∀ r c, t.disp.pixel r c =
        (s.disp.pixel r c ^^ spriteBit s.mem s.base (s.reg x).toNat (s.reg y).toNat n.toNat r c)) ∧
      t.out = s.out ++ [.draw t.disp] ∧ RegsKept [vf] s t ∧ Advanced s t ∧ Frame [.v, .disp, .out, .pc] s t

/-- The collision flag (R212): after a DRW that completes, `VF` is 1 if some pixel that was set is unset, and 0
otherwise. -/
def Obligations.DrawCollision : Prop :=
  ∀ (x y n : Nibble) (s t : State), exec (.drw x y n) s = .next t → t.halt = false →
    ((∃ r c, s.disp.pixel r c = true ∧ t.disp.pixel r c = false) → t.reg vf = 1) ∧
    ((∀ r c, s.disp.pixel r c = true → t.disp.pixel r c = true) → t.reg vf = 0)

/-- Drawing the same sprite at the same coordinates twice restores the display, and the second draw reports a collision
exactly when some sprite bit landed on a pixel that was unset before the first (R212, conflict C9). The coordinates are
the same unless one of them is `VF` and the first draw changed it. -/
def Obligations.DrawTwiceRestores : Prop :=
  ∀ (x y n : Nibble) (s t : State), exec (.drw x y n) s = .next t → t.halt = false → t.reg x = s.reg x →
    t.reg y = s.reg y → ∃ u, exec (.drw x y n) t = .next u ∧ (∀ r c, u.disp.pixel r c = s.disp.pixel r c) ∧
      (u.reg vf = 1 ↔ ∃ r c, s.disp.pixel r c = false ∧
        spriteBit s.mem s.base (s.reg x).toNat (s.reg y).toNat n.toNat r c = true)

/-- With the sink gone, CLS and a DRW whose sprite lies in memory raise `OutputSendFailure` and change nothing else (R214,
decision D26 of the spec). -/
def Obligations.SendFailureIsFatal : Prop :=
  ∀ (x y n : Nibble) (s : State), s.sinkOpen = false →
    Raises .outputSendFailure .cls s ∧
    ((n.toNat = 0 ∨ s.base + n.toNat - 1 ≤ 0xFFF) → Raises .outputSendFailure (.drw x y n) s)

/-! ### Keys and timers -/

/-- SKP and SKNP for a key number from 0 to 15 (R231, R232): the key is the value of Vx. -/
def Obligations.KeySkipResults : Prop :=
  ∀ (x : Nibble) (s : State) (h : (s.reg x).toNat < 16),
    SkipsIf s.keys[(s.reg x).toNat] (.skp x) s ∧ SkipsIf (!s.keys[(s.reg x).toNat]) (.sknp x) s

/-- SKP and SKNP for a key number above 15: the answer is a free value (decision D20 of the spec, log 5), so `PC` moves by 2
or by 4, and nothing else of the engine changes. -/
def Obligations.UnknownKeySkipResults : Prop :=
  ∀ (x : Nibble) (s : State) (i : Instr), 16 ≤ (s.reg x).toNat → i = .skp x ∨ i = .sknp x →
    ∃ t, exec i s = .next t ∧
      (Advanced s t ∨ t.pc.toNat = (s.pc.toNat + 4) % 0x10000) ∧ t.draws = s.draws + 1 ∧ Frame [.pc, .draws] s t

/-- LD Vx, K (R233; decision D21 of the spec): a reported key goes to Vx and the report is used up; without a report nothing
changes, and that this is an answer at all is the model's choice (log 2). -/
def Obligations.KeyWaitResult : Prop :=
  ∀ (x : Nibble) (s : State),
    (∀ k, s.keyReport = some k → ∃ t, exec (.ldVxK x) s = .next t ∧ (t.reg x).toNat = k.toNat ∧ t.keyReport = none ∧
      RegsKept [x] s t ∧ Advanced s t ∧ Frame [.v, .pc, .keyReport] s t) ∧
    (s.keyReport = none → exec (.ldVxK x) s = .next s)

/-- The host's report of a key press completes the `Fx0A` the engine holds in, in one step (R233, R296). -/
def Obligations.ReportedKeyCompletesHold : Prop :=
  ∀ (s : State) (k x : Nibble) (rest : List Turn), s.agenda = .reportKey k :: rest → s.halt = false →
    s.keyReport = none → s.current = some (.ldVxK x) →
    ∃ t, step s = .next t ∧ (t.reg x).toNat = k.toNat ∧ RegsKept [x] s t ∧ Advanced s t ∧ t.agenda = rest ∧
      Frame [.v, .pc, .agenda, .executing] s t

/-- While no key press is reported a holding engine keeps all its state (R233): its turn passes (log 2). -/
def Obligations.HoldingEngineWaits : Prop :=
  ∀ (s : State) (rest : List Turn), s.EngineMoves rest → s.holding = true →
    ∃ t, step s = .next t ∧ t.agenda = rest ∧ Frame [.agenda, .executing] s t

/-- LD Vx, DT and LD DT, Vx and LD ST, Vx (R234, R235, R236). -/
def Obligations.TimerTransferResults : Prop :=
  ∀ (x : Nibble) (s : State),
    Writes (.ldVxDt x) x s.dt.toNat s ∧
    (∃ t, exec (.ldDtVx x) s = .next t ∧ t.dt = s.reg x ∧ Advanced s t ∧ Frame [.dt, .pc] s t) ∧
    (∃ t, exec (.ldStVx x) s = .next t ∧ t.st = s.reg x ∧ Advanced s t ∧ Frame [.st, .pc] s t)

/-! ### The host's turns -/

/-- A tick (R237) counts both timers down to 0 and no further (decision D18 of the spec), in a running, a holding and a
halted engine, and changes nothing else. -/
def Obligations.TickResult : Prop :=
  ∀ (s : State) (rest : List Turn), s.agenda = .tick :: rest →
    ∃ t, step s = .next t ∧ t.dt.toNat = s.dt.toNat - 1 ∧ t.st.toNat = s.st.toNat - 1 ∧ t.agenda = rest ∧
      Frame [.dt, .st, .agenda] s t

/-- Warm reset (R292): `PC` and `SP` only; that the rest is unchanged is the spec's decision D24. The mark that the engine
executes falls (log 10). -/
def Obligations.WarmResetResult : Prop :=
  ∀ (s : State) (rest : List Turn), s.agenda = .warmReset :: rest →
    ∃ t, step s = .next t ∧ t.pc = 0x200 ∧ t.sp.val = 0 ∧ t.executing = false ∧ t.agenda = rest ∧
      Frame [.pc, .sp, .executing, .agenda] s t

/-- Power-on (R290) with any parameters that R192 admits: every piece of the engine's state, and every byte of memory; the
font and the blank display are the spec's decisions D14 and D17. The key state and the model's counter stay (log 15). -/
def Obligations.PowerOnResult : Prop :=
  ∀ (s : State) (p : Params) (rest : List Turn), s.agenda = .powerOn p :: rest → p.fontBase.toNat + 79 ≤ 0x1FF →
    ∃ t, step s = .next t ∧ (∀ x, t.reg x = 0) ∧ t.i = 0 ∧ t.pc = 0x200 ∧ t.sp.val = 0 ∧
      (∀ k : Fin 16, t.stack[k] = 0) ∧ (∀ j : Fin 80, t.mem.read (p.fontBase.toNat + j.val) = p.fontRom[j]) ∧
      (∀ a, a < p.fontBase.toNat ∨ p.fontBase.toNat + 80 ≤ a → t.mem.read a = 0) ∧ t.dt = 0 ∧ t.st = 0 ∧
      (∀ r c, t.disp.pixel r c = false) ∧ t.halt = false ∧ t.cause = .none ∧ t.out = [] ∧ t.sinkOpen = true ∧
      t.params = p ∧ t.keys = s.keys ∧ t.keyReport = none ∧ t.agenda = rest ∧ t.draws = s.draws ∧ t.executing = false

/-- Load (R294) of at most 3584 bytes while the engine does not execute: the program's bytes from 0x200 on, and nothing
else changes. -/
def Obligations.LoadResult : Prop :=
  ∀ (s : State) (program : List Byte) (rest : List Turn), s.agenda = .load program :: rest → s.executing = false →
    s.mem.wf → program.length ≤ 3584 →
    ∃ t, step s = .next t ∧ (∀ (j : Nat) (h : j < program.length), t.mem.read (0x200 + j) = program[j]) ∧
      (∀ a, a < 0x200 ∨ 0x200 + program.length ≤ a → t.mem.read a = s.mem.read a) ∧ t.agenda = rest ∧
      Frame [.mem, .agenda] s t

/-- Load of more than 3584 bytes (R294): `ProgramTooLarge`, and memory is left untouched (decision D25 of the spec). An
engine that is halted already keeps its cause (R253; the model's reading, log 10). -/
def Obligations.OversizedLoadIsFatal : Prop :=
  ∀ (s : State) (program : List Byte) (rest : List Turn), s.agenda = .load program :: rest → s.executing = false →
    3584 < program.length →
    ∃ t, step s = .next t ∧ t.halt = true ∧ t.cause = (if s.halt then s.cause else .programTooLarge) ∧
      t.agenda = rest ∧ Frame [.halt, .cause, .agenda] s t

/-- What the model does not admit (log 10, log 11, log 15): a load while the engine executes, a key report that no `Fx0A`
waits for, and a power-on whose font does not lie below 0x200. -/
def Obligations.InadmissibleTurnsAreRefused : Prop :=
  ∀ (s : State) (rest : List Turn) (program : List Byte) (k : Nibble) (p : Params),
    (s.agenda = .load program :: rest → s.executing = true → step s = .refused .loadWhileExecuting) ∧
    (s.agenda = .reportKey k :: rest → s.holding = false → step s = .refused .keyReportNotAwaited) ∧
    (s.agenda = .powerOn p :: rest → 0x1FF < p.fontBase.toNat + 79 → step s = .refused .fontOutOfRange)

/-- The inputs the host holds (R214, R230, R296): the turn that closes the sink and the turn that presses or releases a key do
that and nothing else, and once gone, the sink stays gone until power-on. A host action as a turn of the agenda, and the
key state in State, are the model's (log 3, log 4). -/
def Obligations.ClosedSinkStaysClosed : Prop :=
  (∀ s t : State, step s = .next t → s.sinkOpen = false → t.sinkOpen = true → s.PowersOn) ∧
  (∀ (s : State) (rest : List Turn), s.agenda = .closeSink :: rest →
    ∃ t, step s = .next t ∧ t.sinkOpen = false ∧ t.agenda = rest ∧ Frame [.sinkOpen, .agenda] s t) ∧
  (∀ (s : State) (k : Nibble) (down : Bool) (rest : List Turn), s.agenda = .setKey k down :: rest →
    ∃ t, step s = .next t ∧ t.keys[k.toNat]'(k.isLt) = down ∧
      (∀ j : Fin 16, j.val ≠ k.toNat → t.keys[j] = s.keys[j]) ∧ t.agenda = rest ∧ Frame [.keys, .agenda] s t)

/-! ### Reset and invariants -/

/-- The state after power-on with the default parameters (R34): the zeroed registers, stack and timers, `PC` = 0x200, the
empty stack; the font in memory and zero elsewhere, the blank display and the clear latch are the spec's decisions D14,
D17 and D23, and so are the default parameters (D9, D14; log 7). The font is compared with the table of R192 digit by
digit. -/
def Obligations.ResetState : Prop :=
  (∀ x, State.reset.reg x = 0) ∧ State.reset.i = 0 ∧ State.reset.pc = 0x200 ∧ State.reset.sp.val = 0 ∧
  (∀ k : Fin 16, State.reset.stack[k] = 0) ∧ State.reset.dt = 0 ∧ State.reset.st = 0 ∧
  (∀ j : Fin 80, State.reset.mem.read j.val = defaultFontRom[j]) ∧ (∀ a, 80 ≤ a → State.reset.mem.read a = 0) ∧
  (∀ r c, State.reset.disp.pixel r c = false) ∧ State.reset.halt = false ∧ State.reset.cause = .none ∧
  State.reset.out = [] ∧ State.reset.sinkOpen = true ∧ State.reset.params.shiftSrc = .vx ∧
  State.reset.params.fontBase = 0 ∧ State.reset.params.fontRom = defaultFontRom ∧
  (List.range 16).map (fun d => State.reset.mem.readBytes (5 * d) 5) =
    [[0xF0, 0x90, 0x90, 0x90, 0xF0], [0x20, 0x60, 0x20, 0x20, 0x70], [0xF0, 0x10, 0xF0, 0x80, 0xF0],
     [0xF0, 0x10, 0xF0, 0x10, 0xF0], [0x90, 0x90, 0xF0, 0x10, 0x10], [0xF0, 0x80, 0xF0, 0x10, 0xF0],
     [0xF0, 0x80, 0xF0, 0x90, 0xF0], [0xF0, 0x10, 0x20, 0x40, 0x40], [0xF0, 0x90, 0xF0, 0x90, 0xF0],
     [0xF0, 0x90, 0xF0, 0x10, 0xF0], [0xF0, 0x90, 0xF0, 0x90, 0x90], [0xE0, 0x90, 0xE0, 0x90, 0xE0],
     [0xF0, 0x80, 0x80, 0x80, 0xF0], [0xE0, 0x90, 0x90, 0x90, 0xE0], [0xF0, 0x80, 0xF0, 0x80, 0xF0],
     [0xF0, 0x80, 0xF0, 0x80, 0x80]]

/-- The invariant holds after power-on. That no key report is pending then, and the canonical form of memory, are the model's
choices (log 4, log 8, log 11). -/
def Obligations.InvariantAtReset : Prop := State.reset.Inv

/-- Every step keeps the invariant, whoever moves: the canonical form of memory, the latch, the values of `PC` and the stack
(the list of R23, which the spec marks as derived), the place of the font, and no stray key report. -/
def Obligations.StepKeepsInvariant : Prop :=
  ∀ s t : State, s.Inv → step s = .next t → t.Inv

/-- A halted machine stays halted with its cause until power-on: `HALT` and `CAUSE` are written at most once between two
power-ons (R253, decision D24 of the spec). -/
def Obligations.HaltIsSticky : Prop :=
  ∀ s t : State, step s = .next t → s.halt = true → (t.halt = true ∧ t.cause = s.cause) ∨ s.PowersOn

/-- Fatal conditions are precise (R252, decision D23 of the spec): a step that halts the machine names a cause and has
changed nothing but `HALT` and `CAUSE`, and the model's turn and mark (log 3, log 10). -/
def Obligations.FatalStepCommitsNothing : Prop :=
  ∀ s t : State, step s = .next t → s.halt = false → t.halt = true →
    t.cause ≠ .none ∧ Frame [.halt, .cause, .agenda, .executing] s t

/-- Messages (R213): a step adds at most one, `Clear` or a snapshot of the new display, unless it is a power-on; and of the
instructions only CLS and DRW add one. -/
def Obligations.OnlyDisplayInstructionsSend : Prop :=
  (∀ s t : State, step s = .next t →
    t.out = s.out ∨ t.out = s.out ++ [.clear] ∨ t.out = s.out ++ [.draw t.disp] ∨ s.PowersOn) ∧
  (∀ (i : Instr) (s t : State), exec i s = .next t → t.out ≠ s.out → i = .cls ∨ ∃ x y n, i = .drw x y n)

/-- Which instructions write which piece of state (the column "written by" of spec/10_state.md section 1; for the registers
see RegistersWrittenOnlyByDestination). -/
def Obligations.StateWrittenOnlyByNamedInstructions : Prop :=
  ∀ (i : Instr) (s t : State), exec i s = .next t →
    (t.i ≠ s.i → (∃ nnn, i = .ldI nnn) ∨ ∃ x, i = .addI x ∨ i = .ldF x ∨ i = .loadRegs x) ∧
    (t.sp ≠ s.sp → i = .ret ∨ ∃ nnn, i = .call nnn) ∧
    (t.stack ≠ s.stack → ∃ nnn, i = .call nnn) ∧
    (∀ a, t.mem.read a ≠ s.mem.read a → ∃ x, i = .ldB x ∨ i = .storeRegs x) ∧
    (t.dt ≠ s.dt → ∃ x, i = .ldDtVx x) ∧ (t.st ≠ s.st → ∃ x, i = .ldStVx x) ∧
    (t.disp ≠ s.disp → i = .cls ∨ ∃ x y n, i = .drw x y n) ∧
    Frame [.v, .i, .pc, .sp, .stack, .mem, .dt, .st, .disp, .halt, .cause, .out, .keyReport, .draws] s t

/-- No instruction changes a register but its named destination and, for the six of R21, `VF` (decision D12 of the spec for
the others). -/
def Obligations.RegistersWrittenOnlyByDestination : Prop :=
  ∀ (i : Instr) (s t : State) (y : Nibble), exec i s = .next t → t.reg y ≠ s.reg y →
    destination i y = true ∨ (setsFlag i = true ∧ y = vf)

/-- The Output history is never read (R31): with another history the same step is taken and adds the same messages. A
power-on empties the history. -/
def Obligations.OutputHistoryNeverRead : Prop :=
  ∀ (s t : State) (history : List Message), step s = .next t → ¬ s.PowersOn →
    step { s with out := history } = .next { t with out := history ++ t.out.drop s.out.length }

/-- Stack entries at and above `SP` are never read before they are written (R25, decision D7 of the spec): states that differ
in them alone take steps to states that differ in such entries alone. -/
def Obligations.DeadStackEntriesNeverRead : Prop :=
  ∀ s s' t : State, SameLive s s' → step s = .next t → ∃ t', step s' = .next t' ∧ SameLive t t'

/-- The contract of the Output channel (R213): an executed CLS sends exactly one `Clear`, an executed DRW exactly one `Draw` of
all pixels as they stand after it, no other instruction sends, and neither do a tick, a warm reset and a load; what was
sent before stays as it was. -/
def Obligations.MessagesSent : Prop :=
  (∀ (i : Instr) (s t : State), exec i s = .next t → t.halt = false → t.out = s.out ++ messages i t) ∧
  ∀ (s : State) (program : List Byte),
    s.tick.out = s.out ∧ s.warmReset.out = s.out ∧ (s.load program).out = s.out
end

