-- ==== Sys2Proof/Laws/Encoding.lean ====
section
/-! SUPPORT. The bits of an encoded word, format by format (spec/30_encoding.md R93), and the word under the masks of
R96. -/

namespace Sys2Proof.Laws

theorem testBit_wordA (c : Nibble) (nnn : Addr) (j : Nat) :
    (wordA c nnn).getLsbD j = if j < 12 then nnn.getLsbD j else c.getLsbD (j - 12) :=
  BitVec.getLsbD_append

theorem testBit_wordXK (c x : Nibble) (kk : Byte) (j : Nat) :
    (wordXK c x kk).getLsbD j =
      if j < 8 then kk.getLsbD j else if j - 8 < 4 then x.getLsbD (j - 8) else c.getLsbD (j - 8 - 4) := by
  unfold wordXK
  rw [BitVec.getLsbD_append, BitVec.getLsbD_append]

theorem testBit_wordXYN (c x y n : Nibble) (j : Nat) :
    (wordXYN c x y n).getLsbD j =
      if j < 4 then n.getLsbD j else if j - 4 < 4 then y.getLsbD (j - 4)
      else if j - 4 - 4 < 4 then x.getLsbD (j - 4 - 4) else c.getLsbD (j - 4 - 4 - 4) := by
  unfold wordXYN
  rw [BitVec.getLsbD_append, BitVec.getLsbD_append, BitVec.getLsbD_append]

/-- Bit `j` of an all-ones digit. -/
theorem getLsbD_ones4 (j : Nat) (h : j < 4) : (0xF : Nibble).getLsbD j = true := by
  have h4 : j = 0 ∨ j = 1 ∨ j = 2 ∨ j = 3 := by omega
  rcases h4 with rfl | rfl | rfl | rfl <;> decide

/-- Bit `j` of an all-ones byte. -/
theorem getLsbD_ones8 (j : Nat) (h : j < 8) : (0xFF : Byte).getLsbD j = true := by
  have h8 : j = 0 ∨ j = 1 ∨ j = 2 ∨ j = 3 ∨ j = 4 ∨ j = 5 ∨ j = 6 ∨ j = 7 := by omega
  rcases h8 with rfl | rfl | rfl | rfl | rfl | rfl | rfl | rfl <;> decide

/-- Format `A` under the mask of its rows. -/
theorem wordA_mask (c : Nibble) (nnn : Addr) : wordA c nnn &&& 0xF000 = wordA c 0 := by
  have hm : (0xF000 : Word) = wordA 0xF 0 := by decide
  apply BitVec.eq_of_getLsbD_eq
  intro j hj
  rw [BitVec.getLsbD_and, hm, testBit_wordA, testBit_wordA, testBit_wordA]
  split
  · simp
  · rw [getLsbD_ones4 _ (by omega), Bool.and_true]

/-- Format `XK` under the mask of the rows with a free low byte. -/
theorem wordXK_mask (c x : Nibble) (kk : Byte) : wordXK c x kk &&& 0xF000 = wordXK c 0 0 := by
  have hm : (0xF000 : Word) = wordXK 0xF 0 0 := by decide
  apply BitVec.eq_of_getLsbD_eq
  intro j hj
  rw [BitVec.getLsbD_and, hm, testBit_wordXK, testBit_wordXK, testBit_wordXK]
  split
  · simp
  · split
    · simp
    · rw [getLsbD_ones4 _ (by omega), Bool.and_true]

/-- Format `XS` under the mask of the rows with a fixed low byte. -/
theorem wordXS_mask (c x : Nibble) (kk : Byte) : wordXK c x kk &&& 0xF0FF = wordXK c 0 kk := by
  have hm : (0xF0FF : Word) = wordXK 0xF 0 0xFF := by decide
  apply BitVec.eq_of_getLsbD_eq
  intro j hj
  rw [BitVec.getLsbD_and, hm, testBit_wordXK, testBit_wordXK, testBit_wordXK]
  split
  · rw [getLsbD_ones8 _ (by omega), Bool.and_true]
  · split
    · simp
    · rw [getLsbD_ones4 _ (by omega), Bool.and_true]

/-- Format `XY` under the mask of its rows. -/
theorem wordXY_mask (c x y n : Nibble) : wordXYN c x y n &&& 0xF00F = wordXYN c 0 0 n := by
  have hm : (0xF00F : Word) = wordXYN 0xF 0 0 0xF := by decide
  apply BitVec.eq_of_getLsbD_eq
  intro j hj
  rw [BitVec.getLsbD_and, hm, testBit_wordXYN, testBit_wordXYN, testBit_wordXYN]
  split
  · rw [getLsbD_ones4 _ (by omega), Bool.and_true]
  · split
    · simp
    · split
      · simp
      · rw [getLsbD_ones4 _ (by omega), Bool.and_true]

/-- Format `XYN` under the mask of its row. -/
theorem wordXYN_mask (c x y n : Nibble) : wordXYN c x y n &&& 0xF000 = wordXYN c 0 0 0 := by
  have hm : (0xF000 : Word) = wordXYN 0xF 0 0 0 := by decide
  apply BitVec.eq_of_getLsbD_eq
  intro j hj
  rw [BitVec.getLsbD_and, hm, testBit_wordXYN, testBit_wordXYN, testBit_wordXYN]
  split
  · simp
  · split
    · simp
    · split
      · simp
      · rw [getLsbD_ones4 _ (by omega), Bool.and_true]

/-! The fields of an encoded word. -/

@[simp] theorem opClass_wordA (c : Nibble) (nnn : Addr) : opClass (wordA c nnn) = c := by
  apply BitVec.eq_of_getLsbD_eq
  intro j hj
  simp only [opClass, BitVec.getLsbD_extractLsb', testBit_wordA]
  simp [hj]

@[simp] theorem fieldNNN_wordA (c : Nibble) (nnn : Addr) : fieldNNN (wordA c nnn) = nnn := by
  apply BitVec.eq_of_getLsbD_eq
  intro j hj
  simp only [fieldNNN, BitVec.getLsbD_extractLsb', testBit_wordA]
  simp [hj]

@[simp] theorem opClass_wordXK (c x : Nibble) (kk : Byte) : opClass (wordXK c x kk) = c := by
  apply BitVec.eq_of_getLsbD_eq
  intro j hj
  simp only [opClass, BitVec.getLsbD_extractLsb', testBit_wordXK]
  rw [if_neg (by omega), if_neg (by omega), show 12 + j - 8 - 4 = j by omega]
  simp [hj]

@[simp] theorem fieldX_wordXK (c x : Nibble) (kk : Byte) : fieldX (wordXK c x kk) = x := by
  apply BitVec.eq_of_getLsbD_eq
  intro j hj
  simp only [fieldX, BitVec.getLsbD_extractLsb', testBit_wordXK]
  rw [if_neg (by omega), if_pos (by omega), show 8 + j - 8 = j by omega]
  simp [hj]

@[simp] theorem fieldKK_wordXK (c x : Nibble) (kk : Byte) : fieldKK (wordXK c x kk) = kk := by
  apply BitVec.eq_of_getLsbD_eq
  intro j hj
  simp only [fieldKK, BitVec.getLsbD_extractLsb', testBit_wordXK]
  simp [hj]

@[simp] theorem opClass_wordXYN (c x y n : Nibble) : opClass (wordXYN c x y n) = c := by
  apply BitVec.eq_of_getLsbD_eq
  intro j hj
  simp only [opClass, BitVec.getLsbD_extractLsb', testBit_wordXYN]
  rw [if_neg (by omega), if_neg (by omega), if_neg (by omega), show 12 + j - 4 - 4 - 4 = j by omega]
  simp [hj]

@[simp] theorem fieldX_wordXYN (c x y n : Nibble) : fieldX (wordXYN c x y n) = x := by
  apply BitVec.eq_of_getLsbD_eq
  intro j hj
  simp only [fieldX, BitVec.getLsbD_extractLsb', testBit_wordXYN]
  rw [if_neg (by omega), if_neg (by omega), if_pos (by omega), show 8 + j - 4 - 4 = j by omega]
  simp [hj]

@[simp] theorem fieldY_wordXYN (c x y n : Nibble) : fieldY (wordXYN c x y n) = y := by
  apply BitVec.eq_of_getLsbD_eq
  intro j hj
  simp only [fieldY, BitVec.getLsbD_extractLsb', testBit_wordXYN]
  rw [if_neg (by omega), if_pos (by omega), show 4 + j - 4 = j by omega]
  simp [hj]

@[simp] theorem fieldN_wordXYN (c x y n : Nibble) : fieldN (wordXYN c x y n) = n := by
  apply BitVec.eq_of_getLsbD_eq
  intro j hj
  simp only [fieldN, BitVec.getLsbD_extractLsb', testBit_wordXYN]
  simp [hj]

/-- A word is its two bytes, high byte first (R64). -/
@[simp] theorem joinBytes_highByte_lowByte (w : Word) : joinBytes (highByte w) (lowByte w) = w := by
  apply BitVec.eq_of_getLsbD_eq
  intro j hj
  simp only [joinBytes, highByte, lowByte, BitVec.getLsbD_append, BitVec.getLsbD_extractLsb']
  split
  · next h => simp [h]
  · next h =>
    rw [show 8 + (j - 8) = j by omega]
    simp [show j - 8 < 8 by omega]

@[simp] theorem highByte_joinBytes (hi lo : Byte) : highByte (joinBytes hi lo) = hi := by
  apply BitVec.eq_of_getLsbD_eq
  intro j hj
  simp only [joinBytes, highByte, BitVec.getLsbD_append, BitVec.getLsbD_extractLsb']
  rw [if_neg (by omega), show 8 + j - 8 = j by omega]
  simp [hj]

@[simp] theorem lowByte_joinBytes (hi lo : Byte) : lowByte (joinBytes hi lo) = lo := by
  apply BitVec.eq_of_getLsbD_eq
  intro j hj
  simp only [joinBytes, lowByte, BitVec.getLsbD_append, BitVec.getLsbD_extractLsb']
  simp [hj]

theorem toNat_joinBytes (hi lo : Byte) : (joinBytes hi lo).toNat = hi.toNat * 256 + lo.toNat := by
  rw [joinBytes, BitVec.toNat_append, Nat.shiftLeft_eq, Nat.mul_comm, ← Nat.two_pow_add_eq_or_of_lt lo.isLt]

/-! Decoding, class by class (R95). -/

/-- The sixteen opcode classes. -/
theorem nibble_cases (b : Nibble) : b = 0x0 ∨ b = 0x1 ∨ b = 0x2 ∨ b = 0x3 ∨ b = 0x4 ∨ b = 0x5 ∨ b = 0x6 ∨ b = 0x7 ∨
    b = 0x8 ∨ b = 0x9 ∨ b = 0xA ∨ b = 0xB ∨ b = 0xC ∨ b = 0xD ∨ b = 0xE ∨ b = 0xF := by
  revert b; decide

theorem decodeWord_class0 {w : Word} (h : opClass w = 0x0) :
    decodeWord w = if w = 0x00E0 then some .cls else if w = 0x00EE then some .ret else none := by
  unfold decodeWord; rw [h]; rfl

theorem decodeWord_class1 {w : Word} (h : opClass w = 0x1) :
    decodeWord w = some (.jp (fieldNNN w)) := by
  unfold decodeWord; rw [h]; rfl

theorem decodeWord_class2 {w : Word} (h : opClass w = 0x2) :
    decodeWord w = some (.call (fieldNNN w)) := by
  unfold decodeWord; rw [h]; rfl

theorem decodeWord_class3 {w : Word} (h : opClass w = 0x3) :
    decodeWord w = some (.seImm (fieldX w) (fieldKK w)) := by
  unfold decodeWord; rw [h]; rfl

theorem decodeWord_class4 {w : Word} (h : opClass w = 0x4) :
    decodeWord w = some (.sneImm (fieldX w) (fieldKK w)) := by
  unfold decodeWord; rw [h]; rfl

theorem decodeWord_class5 {w : Word} (h : opClass w = 0x5) :
    decodeWord w = if fieldN w = 0 then some (.seReg (fieldX w) (fieldY w)) else none := by
  unfold decodeWord; rw [h]; rfl

theorem decodeWord_class6 {w : Word} (h : opClass w = 0x6) :
    decodeWord w = some (.ldImm (fieldX w) (fieldKK w)) := by
  unfold decodeWord; rw [h]; rfl

theorem decodeWord_class7 {w : Word} (h : opClass w = 0x7) :
    decodeWord w = some (.addImm (fieldX w) (fieldKK w)) := by
  unfold decodeWord; rw [h]; rfl

theorem decodeWord_class8 {w : Word} (h : opClass w = 0x8) :
    decodeWord w = decodeAlu (fieldX w) (fieldY w) (fieldN w).toNat := by
  unfold decodeWord; rw [h]; rfl

theorem decodeWord_class9 {w : Word} (h : opClass w = 0x9) :
    decodeWord w = if fieldN w = 0 then some (.sneReg (fieldX w) (fieldY w)) else none := by
  unfold decodeWord; rw [h]; rfl

theorem decodeWord_classA {w : Word} (h : opClass w = 0xA) :
    decodeWord w = some (.ldI (fieldNNN w)) := by
  unfold decodeWord; rw [h]; rfl

theorem decodeWord_classB {w : Word} (h : opClass w = 0xB) :
    decodeWord w = some (.jpV0 (fieldNNN w)) := by
  unfold decodeWord; rw [h]; rfl

theorem decodeWord_classC {w : Word} (h : opClass w = 0xC) :
    decodeWord w = some (.rnd (fieldX w) (fieldKK w)) := by
  unfold decodeWord; rw [h]; rfl

theorem decodeWord_classD {w : Word} (h : opClass w = 0xD) :
    decodeWord w = some (.drw (fieldX w) (fieldY w) (fieldN w)) := by
  unfold decodeWord; rw [h]; rfl

theorem decodeWord_classE {w : Word} (h : opClass w = 0xE) :
    decodeWord w = decodeKey (fieldX w) (fieldKK w).toNat := by
  unfold decodeWord; rw [h]; rfl

theorem decodeWord_classF {w : Word} (h : opClass w = 0xF) :
    decodeWord w = decodeMisc (fieldX w) (fieldKK w).toNat := by
  unfold decodeWord; rw [h]; rfl

/-! A word is its fields. -/

theorem word_ext {w w' : Word} (hc : opClass w = opClass w') (hx : fieldX w = fieldX w') (hy : fieldY w = fieldY w')
    (hn : fieldN w = fieldN w') : w = w' := by
  apply BitVec.eq_of_getLsbD_eq
  intro j hj
  have ec := congrArg (fun b => b.getLsbD (j - 12)) hc
  have ex := congrArg (fun b => b.getLsbD (j - 8)) hx
  have ey := congrArg (fun b => b.getLsbD (j - 4)) hy
  have en := congrArg (fun b => b.getLsbD j) hn
  simp only [opClass, fieldX, fieldY, fieldN, BitVec.getLsbD_extractLsb'] at ec ex ey en
  by_cases h4 : j < 4
  · simpa [h4] using en
  · by_cases h8 : j < 8
    · simpa [show j - 4 < 4 by omega, show 4 + (j - 4) = j by omega] using ey
    · by_cases h12 : j < 12
      · simpa [show j - 8 < 4 by omega, show 8 + (j - 8) = j by omega] using ex
      · simpa [show j - 12 < 4 by omega, show 12 + (j - 12) = j by omega] using ec

/-- The byte `kk` is the digits `y` and `n`. -/
theorem fieldKK_inj {w w' : Word} (h : fieldKK w = fieldKK w') : fieldY w = fieldY w' ∧ fieldN w = fieldN w' := by
  constructor <;> apply BitVec.eq_of_getLsbD_eq <;> intro j hj
  · have e := congrArg (fun b => b.getLsbD (4 + j)) h
    simpa [fieldKK, fieldY, hj, show 4 + j < 8 by omega] using e
  · have e := congrArg (fun b => b.getLsbD j) h
    simpa [fieldKK, fieldN, hj, show j < 8 by omega] using e

/-- The address `nnn` is the digits `x`, `y` and `n`. -/
theorem fieldNNN_inj {w w' : Word} (h : fieldNNN w = fieldNNN w') :
    fieldX w = fieldX w' ∧ fieldY w = fieldY w' ∧ fieldN w = fieldN w' := by
  refine ⟨?_, ?_, ?_⟩ <;> apply BitVec.eq_of_getLsbD_eq <;> intro j hj
  · have e := congrArg (fun b => b.getLsbD (8 + j)) h
    simpa [fieldNNN, fieldX, hj, show 8 + j < 12 by omega] using e
  · have e := congrArg (fun b => b.getLsbD (4 + j)) h
    simpa [fieldNNN, fieldY, hj, show 4 + j < 12 by omega] using e
  · have e := congrArg (fun b => b.getLsbD j) h
    simpa [fieldNNN, fieldN, hj, show j < 12 by omega] using e

theorem wordA_of_fields {w : Word} {c : Nibble} (h : opClass w = c) : wordA c (fieldNNN w) = w := by
  obtain ⟨hx, hy, hn⟩ := fieldNNN_inj (w := wordA c (fieldNNN w)) (w' := w) (by simp)
  exact word_ext (by simp [h]) hx hy hn

theorem wordXK_of_fields {w : Word} {c : Nibble} {kk : Byte} (h : opClass w = c) (hk : fieldKK w = kk) :
    wordXK c (fieldX w) kk = w := by
  obtain ⟨hy, hn⟩ := fieldKK_inj (w := wordXK c (fieldX w) kk) (w' := w) (by simp [hk])
  exact word_ext (by simp [h]) (by simp) hy hn

theorem wordXYN_of_fields {w : Word} {c n : Nibble} (h : opClass w = c) (hn : fieldN w = n) :
    wordXYN c (fieldX w) (fieldY w) n = w :=
  word_ext (by simp [h]) (by simp) (by simp) (by simp [hn])

/-! The digits of a word as numbers. -/

theorem toNat_opClass (w : Word) : (opClass w).toNat = w.toNat / 0x1000 := by
  have := w.isLt
  simp [opClass, Nat.shiftRight_eq_div_pow]
  omega

theorem toNat_fieldN (w : Word) : (fieldN w).toNat = w.toNat % 0x10 := by simp [fieldN]

theorem toNat_fieldKK (w : Word) : (fieldKK w).toNat = w.toNat % 0x100 := by simp [fieldKK]

end Sys2Proof.Laws
end

