-- ==== Sys2Proof/Laws/Memory.lean ====
section
/-! SUPPORT. The laws of memory: a read after a write, the canonical form, byte blocks, and the memory after power-on. -/

namespace Sys2Proof.Machine

@[simp] theorem topAddress_eq : topAddress = 0xFFF := rfl

@[simp] theorem Memory.read_nil (a : Nat) : Memory.read [] a = Memory.unlisted a := rfl

theorem Memory.read_cons (b : Nat) (u : Byte) (m : Memory) (a : Nat) :
    Memory.read ((b, u) :: m) a = if a = b then u else m.read a := rfl

/-- An address below every listed one is unlisted. -/
theorem Memory.read_of_lt (m : Memory) (a : Nat) (h : ∀ c ∈ m, a < c.1) : m.read a = Memory.unlisted a := by
  induction m with
  | nil => rfl
  | cons c m ih =>
    have := h c List.mem_cons_self
    rw [Memory.read_cons, if_neg (by omega)]
    exact ih fun d hd => h d (List.mem_cons_of_mem _ hd)

theorem Memory.read_put (m : Memory) (a : Nat) (v : Byte) (b : Nat) (h : m.read a = Memory.unlisted a) :
    (Memory.put m a v).read b = if b = a then v else m.read b := by
  unfold Memory.put
  split
  · split <;> simp_all
  · rfl

/-- A read after a write, for a memory whose addresses strictly rise. -/
theorem Memory.read_write_of_sorted (m : Memory) (a : Nat) (v : Byte) (b : Nat)
    (h : m.Pairwise (fun c d => c.1 < d.1)) : (m.write a v).read b = if b = a then v else m.read b := by
  induction m with
  | nil => exact Memory.read_put [] a v b rfl
  | cons c m ih =>
    obtain ⟨hc, hm⟩ := List.pairwise_cons.mp h
    unfold Memory.write
    split
    · next hlt =>
      refine Memory.read_put _ a v b (Memory.read_of_lt _ a fun d hd => ?_)
      rcases List.mem_cons.mp hd with rfl | hd
      · exact hlt
      · exact Nat.lt_trans hlt (hc d hd)
    · split
      · next hlt heq =>
        rw [Memory.read_put _ a v b (Memory.read_of_lt _ a fun d hd => heq ▸ hc d hd), Memory.read_cons]
        split <;> simp_all
      · next hlt hne =>
        rw [Memory.read_cons, Memory.read_cons, ih hm]
        split <;> split <;> simp_all

theorem Memory.mem_put {m : Memory} {a : Nat} {v : Byte} {c : Host.Cell} (h : c ∈ Memory.put m a v) :
    (c = (a, v) ∧ v ≠ Memory.unlisted a) ∨ c ∈ m := by
  unfold Memory.put at h
  split at h
  · exact .inr h
  · next hv =>
    rcases List.mem_cons.mp h with rfl | h
    · exact .inl ⟨rfl, hv⟩
    · exact .inr h

theorem Memory.mem_write {m : Memory} {a : Nat} {v : Byte} {c : Host.Cell} (h : c ∈ m.write a v) :
    (c = (a, v) ∧ v ≠ Memory.unlisted a) ∨ c ∈ m := by
  induction m with
  | nil => exact Memory.mem_put h
  | cons d m ih =>
    unfold Memory.write at h
    split at h
    · exact Memory.mem_put h
    · split at h
      · exact (Memory.mem_put h).imp id (List.mem_cons_of_mem _)
      · rcases List.mem_cons.mp h with rfl | h
        · exact .inr List.mem_cons_self
        · exact (ih h).imp id (List.mem_cons_of_mem _)

theorem Memory.put_sorted {m : Memory} {a : Nat} {v : Byte} (hm : m.Pairwise (fun c d => c.1 < d.1))
    (ha : ∀ c ∈ m, a < c.1) : (Memory.put m a v).Pairwise (fun c d => c.1 < d.1) := by
  unfold Memory.put
  split
  · exact hm
  · exact List.pairwise_cons.mpr ⟨ha, hm⟩

theorem Memory.write_sorted {m : Memory} (a : Nat) (v : Byte) (h : m.Pairwise (fun c d => c.1 < d.1)) :
    (m.write a v).Pairwise (fun c d => c.1 < d.1) := by
  induction m with
  | nil => exact Memory.put_sorted h (by simp)
  | cons c m ih =>
    obtain ⟨hc, hm⟩ := List.pairwise_cons.mp h
    unfold Memory.write
    split
    · next hlt =>
      refine Memory.put_sorted h fun d hd => ?_
      rcases List.mem_cons.mp hd with rfl | hd
      · exact hlt
      · exact Nat.lt_trans hlt (hc d hd)
    · split
      · next heq => exact Memory.put_sorted hm fun d hd => heq ▸ hc d hd
      · next hlt hne =>
        refine List.pairwise_cons.mpr ⟨fun d hd => ?_, ih hm⟩
        rcases Memory.mem_write hd with ⟨rfl, _⟩ | hd
        · show c.1 < a
          have : ¬ a < c.1 := hlt
          have : ¬ a = c.1 := hne
          omega
        · exact hc d hd

/-- A store within memory keeps the canonical form. -/
theorem Memory.write_wf {m : Memory} {a : Nat} (v : Byte) (h : m.wf) (ha : a ≤ topAddress) : (m.write a v).wf := by
  refine ⟨Memory.write_sorted a v h.1, fun c hc => ?_⟩
  rcases Memory.mem_write hc with ⟨rfl, hv⟩ | hc
  · exact ⟨ha, hv⟩
  · exact h.2 c hc

/-- A read after a write (spec/20_memory.md R62, R63). -/
theorem Memory.read_write {m : Memory} (h : m.wf) (a : Nat) (v : Byte) (b : Nat) :
    (m.write a v).read b = if b = a then v else m.read b :=
  Memory.read_write_of_sorted m a v b h.1

/-- A block store within memory keeps the canonical form. -/
theorem Memory.writeBytes_wf {m : Memory} {a : Nat} (bs : List Byte) (h : m.wf) (ha : a + bs.length ≤ topAddress + 1) :
    (m.writeBytes a bs).wf := by
  induction bs generalizing m a with
  | nil => exact h
  | cons v bs ih =>
    simp only [List.length_cons] at ha
    exact ih (Memory.write_wf v h (by omega)) (by omega)

theorem Memory.writeBytes_sorted {m : Memory} (a : Nat) (bs : List Byte)
    (h : m.Pairwise (fun c d => c.1 < d.1)) : (m.writeBytes a bs).Pairwise (fun c d => c.1 < d.1) := by
  induction bs generalizing m a with
  | nil => exact h
  | cons v bs ih => exact ih _ (Memory.write_sorted a v h)

/-- A read after a block store. -/
theorem Memory.read_writeBytes {m : Memory} (h : m.Pairwise (fun c d => c.1 < d.1)) (a : Nat) (bs : List Byte) (b : Nat) :
    (m.writeBytes a bs).read b =
      if hb : a ≤ b ∧ b < a + bs.length then bs[b - a]'(by omega) else m.read b := by
  induction bs generalizing m a with
  | nil => rw [dif_neg (by simp)]; rfl
  | cons v bs ih =>
    rw [Memory.writeBytes, ih (Memory.write_sorted a v h), Memory.read_write_of_sorted m a v b h]
    simp only [List.length_cons]
    by_cases hab : b = a
    · subst hab
      rw [dif_neg (by omega), dif_pos (by omega)]
      simp
    · by_cases hin : a + 1 ≤ b ∧ b < a + 1 + bs.length
      · rw [dif_pos hin, dif_pos (by omega)]
        have : b - a = (b - (a + 1)) + 1 := by omega
        simp [this]
      · rw [dif_neg hin, dif_neg (by omega), if_neg hab]

@[simp] theorem Memory.length_readBytes (m : Memory) (a n : Nat) : (m.readBytes a n).length = n := by
  induction n generalizing a with
  | zero => rfl
  | succ n ih => simp [Memory.readBytes, ih]

theorem Memory.fill_wf (f : Nat → Byte) (n : Nat) (h : n ≤ topAddress + 1) : (Memory.fill f n).wf := by
  induction n with
  | zero => exact ⟨.nil, by simp [Memory.fill]⟩
  | succ n ih => exact Memory.write_wf _ (ih (by omega)) (by omega)

theorem Memory.read_fill (f : Nat → Byte) (n : Nat) (h : n ≤ topAddress + 1) (a : Nat) :
    (Memory.fill f n).read a = if a < n then f a else Memory.unlisted a := by
  induction n with
  | zero => rfl
  | succ n ih =>
    rw [Memory.fill, Memory.read_write (Memory.fill_wf f n (by omega)), ih (by omega)]
    by_cases han : a = n
    · simp [han]
    · rw [if_neg han]
      by_cases hlt : a < n
      · rw [if_pos hlt, if_pos (by omega)]
      · rw [if_neg hlt, if_neg (by omega)]

theorem powerOnByte_eq_zero (p : Params) (a : Nat) (hp : p.wellFormed = true) (ha : 0x200 ≤ a) : powerOnByte p a = 0 := by
  simp only [Params.wellFormed, decide_eq_true_eq] at hp
  exact dif_neg (by omega)

theorem powerOnMemory_wf (p : Params) : (powerOnMemory p).wf := Memory.fill_wf _ _ (by decide)

/-- Every address after power-on (spec/70_reset_and_hazards.md R290). -/
theorem read_powerOnMemory (p : Params) (hp : p.wellFormed = true) (a : Nat) :
    (powerOnMemory p).read a = powerOnByte p a := by
  rw [powerOnMemory, Memory.read_fill _ _ (by decide)]
  split
  · rfl
  · next h => rw [powerOnByte_eq_zero p a hp (by omega), Memory.unlisted, powerOnByte_eq_zero _ a (by decide) (by omega)]

end Sys2Proof.Machine
end

