-- ==== Sys2Proof/Laws/State.lean ====
section
/-! SUPPORT. What each update of the state does to each field, so that no later proof unfolds a record update. -/

namespace Sys2Proof.Machine

variable (s : State)

section SetReg

variable (x : Nibble) (b : Byte)

@[simp] theorem State.setReg_v : (s.setReg x b).v = s.v.set x.toNat b x.isLt := rfl
@[simp] theorem State.setReg_i : (s.setReg x b).i = s.i := rfl
@[simp] theorem State.setReg_pc : (s.setReg x b).pc = s.pc := rfl
@[simp] theorem State.setReg_sp : (s.setReg x b).sp = s.sp := rfl
@[simp] theorem State.setReg_stack : (s.setReg x b).stack = s.stack := rfl
@[simp] theorem State.setReg_mem : (s.setReg x b).mem = s.mem := rfl
@[simp] theorem State.setReg_dt : (s.setReg x b).dt = s.dt := rfl
@[simp] theorem State.setReg_st : (s.setReg x b).st = s.st := rfl
@[simp] theorem State.setReg_disp : (s.setReg x b).disp = s.disp := rfl
@[simp] theorem State.setReg_halt : (s.setReg x b).halt = s.halt := rfl
@[simp] theorem State.setReg_cause : (s.setReg x b).cause = s.cause := rfl
@[simp] theorem State.setReg_out : (s.setReg x b).out = s.out := rfl
@[simp] theorem State.setReg_params : (s.setReg x b).params = s.params := rfl
@[simp] theorem State.setReg_sinkOpen : (s.setReg x b).sinkOpen = s.sinkOpen := rfl
@[simp] theorem State.setReg_keys : (s.setReg x b).keys = s.keys := rfl
@[simp] theorem State.setReg_keyReport : (s.setReg x b).keyReport = s.keyReport := rfl
@[simp] theorem State.setReg_agenda : (s.setReg x b).agenda = s.agenda := rfl
@[simp] theorem State.setReg_draws : (s.setReg x b).draws = s.draws := rfl
@[simp] theorem State.setReg_executing : (s.setReg x b).executing = s.executing := rfl

end SetReg

section SetWithFlag

variable (x : Nibble) (r f : Byte)

@[simp] theorem State.setWithFlag_v : (s.setWithFlag x r f).v = (s.v.set x.toNat r x.isLt).set vf.toNat f vf.isLt := rfl
@[simp] theorem State.setWithFlag_i : (s.setWithFlag x r f).i = s.i := rfl
@[simp] theorem State.setWithFlag_pc : (s.setWithFlag x r f).pc = s.pc := rfl
@[simp] theorem State.setWithFlag_sp : (s.setWithFlag x r f).sp = s.sp := rfl
@[simp] theorem State.setWithFlag_stack : (s.setWithFlag x r f).stack = s.stack := rfl
@[simp] theorem State.setWithFlag_mem : (s.setWithFlag x r f).mem = s.mem := rfl
@[simp] theorem State.setWithFlag_dt : (s.setWithFlag x r f).dt = s.dt := rfl
@[simp] theorem State.setWithFlag_st : (s.setWithFlag x r f).st = s.st := rfl
@[simp] theorem State.setWithFlag_disp : (s.setWithFlag x r f).disp = s.disp := rfl
@[simp] theorem State.setWithFlag_halt : (s.setWithFlag x r f).halt = s.halt := rfl
@[simp] theorem State.setWithFlag_cause : (s.setWithFlag x r f).cause = s.cause := rfl
@[simp] theorem State.setWithFlag_out : (s.setWithFlag x r f).out = s.out := rfl
@[simp] theorem State.setWithFlag_params : (s.setWithFlag x r f).params = s.params := rfl
@[simp] theorem State.setWithFlag_sinkOpen : (s.setWithFlag x r f).sinkOpen = s.sinkOpen := rfl
@[simp] theorem State.setWithFlag_keys : (s.setWithFlag x r f).keys = s.keys := rfl
@[simp] theorem State.setWithFlag_keyReport : (s.setWithFlag x r f).keyReport = s.keyReport := rfl
@[simp] theorem State.setWithFlag_agenda : (s.setWithFlag x r f).agenda = s.agenda := rfl
@[simp] theorem State.setWithFlag_draws : (s.setWithFlag x r f).draws = s.draws := rfl
@[simp] theorem State.setWithFlag_executing : (s.setWithFlag x r f).executing = s.executing := rfl

end SetWithFlag

section Advance

@[simp] theorem State.advance_v : (s.advance).v = s.v := rfl
@[simp] theorem State.advance_i : (s.advance).i = s.i := rfl
@[simp] theorem State.advance_pc : (s.advance).pc = s.pc + 2 := rfl
@[simp] theorem State.advance_sp : (s.advance).sp = s.sp := rfl
@[simp] theorem State.advance_stack : (s.advance).stack = s.stack := rfl
@[simp] theorem State.advance_mem : (s.advance).mem = s.mem := rfl
@[simp] theorem State.advance_dt : (s.advance).dt = s.dt := rfl
@[simp] theorem State.advance_st : (s.advance).st = s.st := rfl
@[simp] theorem State.advance_disp : (s.advance).disp = s.disp := rfl
@[simp] theorem State.advance_halt : (s.advance).halt = s.halt := rfl
@[simp] theorem State.advance_cause : (s.advance).cause = s.cause := rfl
@[simp] theorem State.advance_out : (s.advance).out = s.out := rfl
@[simp] theorem State.advance_params : (s.advance).params = s.params := rfl
@[simp] theorem State.advance_sinkOpen : (s.advance).sinkOpen = s.sinkOpen := rfl
@[simp] theorem State.advance_keys : (s.advance).keys = s.keys := rfl
@[simp] theorem State.advance_keyReport : (s.advance).keyReport = s.keyReport := rfl
@[simp] theorem State.advance_agenda : (s.advance).agenda = s.agenda := rfl
@[simp] theorem State.advance_draws : (s.advance).draws = s.draws := rfl
@[simp] theorem State.advance_executing : (s.advance).executing = s.executing := rfl

end Advance

section SkipIf

variable (c : Bool)

@[simp] theorem State.skipIf_v : (s.skipIf c).v = s.v := rfl
@[simp] theorem State.skipIf_i : (s.skipIf c).i = s.i := rfl
@[simp] theorem State.skipIf_pc : (s.skipIf c).pc = if c then s.pc + 4 else s.pc + 2 := rfl
@[simp] theorem State.skipIf_sp : (s.skipIf c).sp = s.sp := rfl
@[simp] theorem State.skipIf_stack : (s.skipIf c).stack = s.stack := rfl
@[simp] theorem State.skipIf_mem : (s.skipIf c).mem = s.mem := rfl
@[simp] theorem State.skipIf_dt : (s.skipIf c).dt = s.dt := rfl
@[simp] theorem State.skipIf_st : (s.skipIf c).st = s.st := rfl
@[simp] theorem State.skipIf_disp : (s.skipIf c).disp = s.disp := rfl
@[simp] theorem State.skipIf_halt : (s.skipIf c).halt = s.halt := rfl
@[simp] theorem State.skipIf_cause : (s.skipIf c).cause = s.cause := rfl
@[simp] theorem State.skipIf_out : (s.skipIf c).out = s.out := rfl
@[simp] theorem State.skipIf_params : (s.skipIf c).params = s.params := rfl
@[simp] theorem State.skipIf_sinkOpen : (s.skipIf c).sinkOpen = s.sinkOpen := rfl
@[simp] theorem State.skipIf_keys : (s.skipIf c).keys = s.keys := rfl
@[simp] theorem State.skipIf_keyReport : (s.skipIf c).keyReport = s.keyReport := rfl
@[simp] theorem State.skipIf_agenda : (s.skipIf c).agenda = s.agenda := rfl
@[simp] theorem State.skipIf_draws : (s.skipIf c).draws = s.draws := rfl
@[simp] theorem State.skipIf_executing : (s.skipIf c).executing = s.executing := rfl

end SkipIf

section Jump

variable (a : Word)

@[simp] theorem State.jump_v : (s.jump a).v = s.v := rfl
@[simp] theorem State.jump_i : (s.jump a).i = s.i := rfl
@[simp] theorem State.jump_pc : (s.jump a).pc = a := rfl
@[simp] theorem State.jump_sp : (s.jump a).sp = s.sp := rfl
@[simp] theorem State.jump_stack : (s.jump a).stack = s.stack := rfl
@[simp] theorem State.jump_mem : (s.jump a).mem = s.mem := rfl
@[simp] theorem State.jump_dt : (s.jump a).dt = s.dt := rfl
@[simp] theorem State.jump_st : (s.jump a).st = s.st := rfl
@[simp] theorem State.jump_disp : (s.jump a).disp = s.disp := rfl
@[simp] theorem State.jump_halt : (s.jump a).halt = s.halt := rfl
@[simp] theorem State.jump_cause : (s.jump a).cause = s.cause := rfl
@[simp] theorem State.jump_out : (s.jump a).out = s.out := rfl
@[simp] theorem State.jump_params : (s.jump a).params = s.params := rfl
@[simp] theorem State.jump_sinkOpen : (s.jump a).sinkOpen = s.sinkOpen := rfl
@[simp] theorem State.jump_keys : (s.jump a).keys = s.keys := rfl
@[simp] theorem State.jump_keyReport : (s.jump a).keyReport = s.keyReport := rfl
@[simp] theorem State.jump_agenda : (s.jump a).agenda = s.agenda := rfl
@[simp] theorem State.jump_draws : (s.jump a).draws = s.draws := rfl
@[simp] theorem State.jump_executing : (s.jump a).executing = s.executing := rfl

end Jump

section Raise

variable (c : Cause)

@[simp] theorem State.raise_v : (s.raise c).v = s.v := rfl
@[simp] theorem State.raise_i : (s.raise c).i = s.i := rfl
@[simp] theorem State.raise_pc : (s.raise c).pc = s.pc := rfl
@[simp] theorem State.raise_sp : (s.raise c).sp = s.sp := rfl
@[simp] theorem State.raise_stack : (s.raise c).stack = s.stack := rfl
@[simp] theorem State.raise_mem : (s.raise c).mem = s.mem := rfl
@[simp] theorem State.raise_dt : (s.raise c).dt = s.dt := rfl
@[simp] theorem State.raise_st : (s.raise c).st = s.st := rfl
@[simp] theorem State.raise_disp : (s.raise c).disp = s.disp := rfl
@[simp] theorem State.raise_halt : (s.raise c).halt = true := rfl
@[simp] theorem State.raise_cause : (s.raise c).cause = c := rfl
@[simp] theorem State.raise_out : (s.raise c).out = s.out := rfl
@[simp] theorem State.raise_params : (s.raise c).params = s.params := rfl
@[simp] theorem State.raise_sinkOpen : (s.raise c).sinkOpen = s.sinkOpen := rfl
@[simp] theorem State.raise_keys : (s.raise c).keys = s.keys := rfl
@[simp] theorem State.raise_keyReport : (s.raise c).keyReport = s.keyReport := rfl
@[simp] theorem State.raise_agenda : (s.raise c).agenda = s.agenda := rfl
@[simp] theorem State.raise_draws : (s.raise c).draws = s.draws := rfl
@[simp] theorem State.raise_executing : (s.raise c).executing = s.executing := rfl

end Raise

section Push

variable (a : Word) (h : s.sp.val < 16)

@[simp] theorem State.push_v : (s.push a h).v = s.v := rfl
@[simp] theorem State.push_i : (s.push a h).i = s.i := rfl
@[simp] theorem State.push_pc : (s.push a h).pc = s.pc := rfl
@[simp] theorem State.push_sp : (s.push a h).sp = ⟨s.sp.val + 1, by omega⟩ := rfl
@[simp] theorem State.push_stack : (s.push a h).stack = s.stack.set s.sp.val a h := rfl
@[simp] theorem State.push_mem : (s.push a h).mem = s.mem := rfl
@[simp] theorem State.push_dt : (s.push a h).dt = s.dt := rfl
@[simp] theorem State.push_st : (s.push a h).st = s.st := rfl
@[simp] theorem State.push_disp : (s.push a h).disp = s.disp := rfl
@[simp] theorem State.push_halt : (s.push a h).halt = s.halt := rfl
@[simp] theorem State.push_cause : (s.push a h).cause = s.cause := rfl
@[simp] theorem State.push_out : (s.push a h).out = s.out := rfl
@[simp] theorem State.push_params : (s.push a h).params = s.params := rfl
@[simp] theorem State.push_sinkOpen : (s.push a h).sinkOpen = s.sinkOpen := rfl
@[simp] theorem State.push_keys : (s.push a h).keys = s.keys := rfl
@[simp] theorem State.push_keyReport : (s.push a h).keyReport = s.keyReport := rfl
@[simp] theorem State.push_agenda : (s.push a h).agenda = s.agenda := rfl
@[simp] theorem State.push_draws : (s.push a h).draws = s.draws := rfl
@[simp] theorem State.push_executing : (s.push a h).executing = s.executing := rfl

end Push

section Drop

@[simp] theorem State.drop_v : (s.drop).v = s.v := rfl
@[simp] theorem State.drop_i : (s.drop).i = s.i := rfl
@[simp] theorem State.drop_pc : (s.drop).pc = s.pc := rfl
@[simp] theorem State.drop_sp : (s.drop).sp = ⟨s.sp.val - 1, by omega⟩ := rfl
@[simp] theorem State.drop_stack : (s.drop).stack = s.stack := rfl
@[simp] theorem State.drop_mem : (s.drop).mem = s.mem := rfl
@[simp] theorem State.drop_dt : (s.drop).dt = s.dt := rfl
@[simp] theorem State.drop_st : (s.drop).st = s.st := rfl
@[simp] theorem State.drop_disp : (s.drop).disp = s.disp := rfl
@[simp] theorem State.drop_halt : (s.drop).halt = s.halt := rfl
@[simp] theorem State.drop_cause : (s.drop).cause = s.cause := rfl
@[simp] theorem State.drop_out : (s.drop).out = s.out := rfl
@[simp] theorem State.drop_params : (s.drop).params = s.params := rfl
@[simp] theorem State.drop_sinkOpen : (s.drop).sinkOpen = s.sinkOpen := rfl
@[simp] theorem State.drop_keys : (s.drop).keys = s.keys := rfl
@[simp] theorem State.drop_keyReport : (s.drop).keyReport = s.keyReport := rfl
@[simp] theorem State.drop_agenda : (s.drop).agenda = s.agenda := rfl
@[simp] theorem State.drop_draws : (s.drop).draws = s.draws := rfl
@[simp] theorem State.drop_executing : (s.drop).executing = s.executing := rfl

end Drop

section Emit

variable (m : Message)

@[simp] theorem State.emit_v : (s.emit m).v = s.v := rfl
@[simp] theorem State.emit_i : (s.emit m).i = s.i := rfl
@[simp] theorem State.emit_pc : (s.emit m).pc = s.pc := rfl
@[simp] theorem State.emit_sp : (s.emit m).sp = s.sp := rfl
@[simp] theorem State.emit_stack : (s.emit m).stack = s.stack := rfl
@[simp] theorem State.emit_mem : (s.emit m).mem = s.mem := rfl
@[simp] theorem State.emit_dt : (s.emit m).dt = s.dt := rfl
@[simp] theorem State.emit_st : (s.emit m).st = s.st := rfl
@[simp] theorem State.emit_disp : (s.emit m).disp = s.disp := rfl
@[simp] theorem State.emit_halt : (s.emit m).halt = s.halt := rfl
@[simp] theorem State.emit_cause : (s.emit m).cause = s.cause := rfl
@[simp] theorem State.emit_out : (s.emit m).out = s.out ++ [m] := rfl
@[simp] theorem State.emit_params : (s.emit m).params = s.params := rfl
@[simp] theorem State.emit_sinkOpen : (s.emit m).sinkOpen = s.sinkOpen := rfl
@[simp] theorem State.emit_keys : (s.emit m).keys = s.keys := rfl
@[simp] theorem State.emit_keyReport : (s.emit m).keyReport = s.keyReport := rfl
@[simp] theorem State.emit_agenda : (s.emit m).agenda = s.agenda := rfl
@[simp] theorem State.emit_draws : (s.emit m).draws = s.draws := rfl
@[simp] theorem State.emit_executing : (s.emit m).executing = s.executing := rfl

end Emit

section Paint

variable (p : Display × Bool)

@[simp] theorem State.paint_v : (s.paint p).v = s.v.set vf.toNat (flagByte p.2) vf.isLt := rfl
@[simp] theorem State.paint_i : (s.paint p).i = s.i := rfl
@[simp] theorem State.paint_pc : (s.paint p).pc = s.pc + 2 := rfl
@[simp] theorem State.paint_sp : (s.paint p).sp = s.sp := rfl
@[simp] theorem State.paint_stack : (s.paint p).stack = s.stack := rfl
@[simp] theorem State.paint_mem : (s.paint p).mem = s.mem := rfl
@[simp] theorem State.paint_dt : (s.paint p).dt = s.dt := rfl
@[simp] theorem State.paint_st : (s.paint p).st = s.st := rfl
@[simp] theorem State.paint_disp : (s.paint p).disp = p.1 := rfl
@[simp] theorem State.paint_halt : (s.paint p).halt = s.halt := rfl
@[simp] theorem State.paint_cause : (s.paint p).cause = s.cause := rfl
@[simp] theorem State.paint_out : (s.paint p).out = s.out ++ [.draw p.1] := rfl
@[simp] theorem State.paint_params : (s.paint p).params = s.params := rfl
@[simp] theorem State.paint_sinkOpen : (s.paint p).sinkOpen = s.sinkOpen := rfl
@[simp] theorem State.paint_keys : (s.paint p).keys = s.keys := rfl
@[simp] theorem State.paint_keyReport : (s.paint p).keyReport = s.keyReport := rfl
@[simp] theorem State.paint_agenda : (s.paint p).agenda = s.agenda := rfl
@[simp] theorem State.paint_draws : (s.paint p).draws = s.draws := rfl
@[simp] theorem State.paint_executing : (s.paint p).executing = s.executing := rfl

end Paint

section AfterQuery

variable (k : Byte)

@[simp] theorem State.afterQuery_v : (s.afterQuery k).v = s.v := by
  unfold State.afterQuery; split <;> rfl
@[simp] theorem State.afterQuery_i : (s.afterQuery k).i = s.i := by
  unfold State.afterQuery; split <;> rfl
@[simp] theorem State.afterQuery_pc : (s.afterQuery k).pc = s.pc := by
  unfold State.afterQuery; split <;> rfl
@[simp] theorem State.afterQuery_sp : (s.afterQuery k).sp = s.sp := by
  unfold State.afterQuery; split <;> rfl
@[simp] theorem State.afterQuery_stack : (s.afterQuery k).stack = s.stack := by
  unfold State.afterQuery; split <;> rfl
@[simp] theorem State.afterQuery_mem : (s.afterQuery k).mem = s.mem := by
  unfold State.afterQuery; split <;> rfl
@[simp] theorem State.afterQuery_dt : (s.afterQuery k).dt = s.dt := by
  unfold State.afterQuery; split <;> rfl
@[simp] theorem State.afterQuery_st : (s.afterQuery k).st = s.st := by
  unfold State.afterQuery; split <;> rfl
@[simp] theorem State.afterQuery_disp : (s.afterQuery k).disp = s.disp := by
  unfold State.afterQuery; split <;> rfl
@[simp] theorem State.afterQuery_halt : (s.afterQuery k).halt = s.halt := by
  unfold State.afterQuery; split <;> rfl
@[simp] theorem State.afterQuery_cause : (s.afterQuery k).cause = s.cause := by
  unfold State.afterQuery; split <;> rfl
@[simp] theorem State.afterQuery_out : (s.afterQuery k).out = s.out := by
  unfold State.afterQuery; split <;> rfl
@[simp] theorem State.afterQuery_params : (s.afterQuery k).params = s.params := by
  unfold State.afterQuery; split <;> rfl
@[simp] theorem State.afterQuery_sinkOpen : (s.afterQuery k).sinkOpen = s.sinkOpen := by
  unfold State.afterQuery; split <;> rfl
@[simp] theorem State.afterQuery_keys : (s.afterQuery k).keys = s.keys := by
  unfold State.afterQuery; split <;> rfl
@[simp] theorem State.afterQuery_keyReport : (s.afterQuery k).keyReport = s.keyReport := by
  unfold State.afterQuery; split <;> rfl
@[simp] theorem State.afterQuery_agenda : (s.afterQuery k).agenda = s.agenda := by
  unfold State.afterQuery; split <;> rfl
@[simp] theorem State.afterQuery_draws : (s.afterQuery k).draws = if k.toNat < 16 then s.draws else s.draws + 1 := by
  unfold State.afterQuery; split <;> rfl
@[simp] theorem State.afterQuery_executing : (s.afterQuery k).executing = s.executing := by
  unfold State.afterQuery; split <;> rfl

end AfterQuery

section Tick

@[simp] theorem State.tick_v : (s.tick).v = s.v := rfl
@[simp] theorem State.tick_i : (s.tick).i = s.i := rfl
@[simp] theorem State.tick_pc : (s.tick).pc = s.pc := rfl
@[simp] theorem State.tick_sp : (s.tick).sp = s.sp := rfl
@[simp] theorem State.tick_stack : (s.tick).stack = s.stack := rfl
@[simp] theorem State.tick_mem : (s.tick).mem = s.mem := rfl
@[simp] theorem State.tick_dt : (s.tick).dt = countDown s.dt := rfl
@[simp] theorem State.tick_st : (s.tick).st = countDown s.st := rfl
@[simp] theorem State.tick_disp : (s.tick).disp = s.disp := rfl
@[simp] theorem State.tick_halt : (s.tick).halt = s.halt := rfl
@[simp] theorem State.tick_cause : (s.tick).cause = s.cause := rfl
@[simp] theorem State.tick_out : (s.tick).out = s.out := rfl
@[simp] theorem State.tick_params : (s.tick).params = s.params := rfl
@[simp] theorem State.tick_sinkOpen : (s.tick).sinkOpen = s.sinkOpen := rfl
@[simp] theorem State.tick_keys : (s.tick).keys = s.keys := rfl
@[simp] theorem State.tick_keyReport : (s.tick).keyReport = s.keyReport := rfl
@[simp] theorem State.tick_agenda : (s.tick).agenda = s.agenda := rfl
@[simp] theorem State.tick_draws : (s.tick).draws = s.draws := rfl
@[simp] theorem State.tick_executing : (s.tick).executing = s.executing := rfl

end Tick

section WarmReset

@[simp] theorem State.warmReset_v : (s.warmReset).v = s.v := rfl
@[simp] theorem State.warmReset_i : (s.warmReset).i = s.i := rfl
@[simp] theorem State.warmReset_pc : (s.warmReset).pc = 0x200 := rfl
@[simp] theorem State.warmReset_sp : (s.warmReset).sp = 0 := rfl
@[simp] theorem State.warmReset_stack : (s.warmReset).stack = s.stack := rfl
@[simp] theorem State.warmReset_mem : (s.warmReset).mem = s.mem := rfl
@[simp] theorem State.warmReset_dt : (s.warmReset).dt = s.dt := rfl
@[simp] theorem State.warmReset_st : (s.warmReset).st = s.st := rfl
@[simp] theorem State.warmReset_disp : (s.warmReset).disp = s.disp := rfl
@[simp] theorem State.warmReset_halt : (s.warmReset).halt = s.halt := rfl
@[simp] theorem State.warmReset_cause : (s.warmReset).cause = s.cause := rfl
@[simp] theorem State.warmReset_out : (s.warmReset).out = s.out := rfl
@[simp] theorem State.warmReset_params : (s.warmReset).params = s.params := rfl
@[simp] theorem State.warmReset_sinkOpen : (s.warmReset).sinkOpen = s.sinkOpen := rfl
@[simp] theorem State.warmReset_keys : (s.warmReset).keys = s.keys := rfl
@[simp] theorem State.warmReset_keyReport : (s.warmReset).keyReport = s.keyReport := rfl
@[simp] theorem State.warmReset_agenda : (s.warmReset).agenda = s.agenda := rfl
@[simp] theorem State.warmReset_draws : (s.warmReset).draws = s.draws := rfl
@[simp] theorem State.warmReset_executing : (s.warmReset).executing = false := rfl

end WarmReset

section SetKey

variable (k : Nibble) (d : Bool)

@[simp] theorem State.setKey_v : (s.setKey k d).v = s.v := rfl
@[simp] theorem State.setKey_i : (s.setKey k d).i = s.i := rfl
@[simp] theorem State.setKey_pc : (s.setKey k d).pc = s.pc := rfl
@[simp] theorem State.setKey_sp : (s.setKey k d).sp = s.sp := rfl
@[simp] theorem State.setKey_stack : (s.setKey k d).stack = s.stack := rfl
@[simp] theorem State.setKey_mem : (s.setKey k d).mem = s.mem := rfl
@[simp] theorem State.setKey_dt : (s.setKey k d).dt = s.dt := rfl
@[simp] theorem State.setKey_st : (s.setKey k d).st = s.st := rfl
@[simp] theorem State.setKey_disp : (s.setKey k d).disp = s.disp := rfl
@[simp] theorem State.setKey_halt : (s.setKey k d).halt = s.halt := rfl
@[simp] theorem State.setKey_cause : (s.setKey k d).cause = s.cause := rfl
@[simp] theorem State.setKey_out : (s.setKey k d).out = s.out := rfl
@[simp] theorem State.setKey_params : (s.setKey k d).params = s.params := rfl
@[simp] theorem State.setKey_sinkOpen : (s.setKey k d).sinkOpen = s.sinkOpen := rfl
@[simp] theorem State.setKey_keys : (s.setKey k d).keys = s.keys.set k.toNat d k.isLt := rfl
@[simp] theorem State.setKey_keyReport : (s.setKey k d).keyReport = s.keyReport := rfl
@[simp] theorem State.setKey_agenda : (s.setKey k d).agenda = s.agenda := rfl
@[simp] theorem State.setKey_draws : (s.setKey k d).draws = s.draws := rfl
@[simp] theorem State.setKey_executing : (s.setKey k d).executing = s.executing := rfl

end SetKey

section CloseSink

@[simp] theorem State.closeSink_v : (s.closeSink).v = s.v := rfl
@[simp] theorem State.closeSink_i : (s.closeSink).i = s.i := rfl
@[simp] theorem State.closeSink_pc : (s.closeSink).pc = s.pc := rfl
@[simp] theorem State.closeSink_sp : (s.closeSink).sp = s.sp := rfl
@[simp] theorem State.closeSink_stack : (s.closeSink).stack = s.stack := rfl
@[simp] theorem State.closeSink_mem : (s.closeSink).mem = s.mem := rfl
@[simp] theorem State.closeSink_dt : (s.closeSink).dt = s.dt := rfl
@[simp] theorem State.closeSink_st : (s.closeSink).st = s.st := rfl
@[simp] theorem State.closeSink_disp : (s.closeSink).disp = s.disp := rfl
@[simp] theorem State.closeSink_halt : (s.closeSink).halt = s.halt := rfl
@[simp] theorem State.closeSink_cause : (s.closeSink).cause = s.cause := rfl
@[simp] theorem State.closeSink_out : (s.closeSink).out = s.out := rfl
@[simp] theorem State.closeSink_params : (s.closeSink).params = s.params := rfl
@[simp] theorem State.closeSink_sinkOpen : (s.closeSink).sinkOpen = false := rfl
@[simp] theorem State.closeSink_keys : (s.closeSink).keys = s.keys := rfl
@[simp] theorem State.closeSink_keyReport : (s.closeSink).keyReport = s.keyReport := rfl
@[simp] theorem State.closeSink_agenda : (s.closeSink).agenda = s.agenda := rfl
@[simp] theorem State.closeSink_draws : (s.closeSink).draws = s.draws := rfl
@[simp] theorem State.closeSink_executing : (s.closeSink).executing = s.executing := rfl

end CloseSink

end Sys2Proof.Machine
end

