-- ==== Sys2Proof/Laws/Registers.lean ====
section
/-! SUPPORT. The laws of the general registers: a read after each update, register blocks, the flag byte. -/

namespace Sys2Proof.Machine

variable (s : State)

/-- Reading a register depends on `V` alone. -/
theorem State.reg_congr {s t : State} (h : t.v = s.v) (x : Nibble) : t.reg x = s.reg x := by
  simp only [State.reg, h]

/-- A read after a write. -/
@[simp] theorem State.reg_setReg (x y : Nibble) (b : Byte) :
    (s.setReg x b).reg y = if y = x then b else s.reg y := by
  simp only [State.reg, State.setReg_v, Vector.getElem_set, BitVec.toNat_inj]
  by_cases h : y = x
  · simp [h]
  · simp [h, Ne.symm h]

/-- Destination first, flag second: register 15 ends with the flag (spec/40_cycle.md R124). -/
@[simp] theorem State.reg_setWithFlag (x y : Nibble) (r f : Byte) :
    (s.setWithFlag x r f).reg y = if y = vf then f else if y = x then r else s.reg y := by
  simp only [State.setWithFlag, State.reg_setReg]

@[simp] theorem State.reg_advance (y : Nibble) : s.advance.reg y = s.reg y := rfl
@[simp] theorem State.reg_skipIf (c : Bool) (y : Nibble) : (s.skipIf c).reg y = s.reg y := rfl
@[simp] theorem State.reg_jump (a : Word) (y : Nibble) : (s.jump a).reg y = s.reg y := rfl
@[simp] theorem State.reg_raise (c : Cause) (y : Nibble) : (s.raise c).reg y = s.reg y := rfl
@[simp] theorem State.reg_push (a : Word) (h : s.sp.val < 16) (y : Nibble) : (s.push a h).reg y = s.reg y := rfl
@[simp] theorem State.reg_drop (y : Nibble) : s.drop.reg y = s.reg y := rfl
@[simp] theorem State.reg_emit (m : Message) (y : Nibble) : (s.emit m).reg y = s.reg y := rfl
@[simp] theorem State.reg_tick (y : Nibble) : s.tick.reg y = s.reg y := rfl
@[simp] theorem State.reg_warmReset (y : Nibble) : s.warmReset.reg y = s.reg y := rfl

@[simp] theorem State.reg_afterQuery (k : Byte) (y : Nibble) : (s.afterQuery k).reg y = s.reg y :=
  State.reg_congr (State.afterQuery_v s k) y

@[simp] theorem State.reg_paint (p : Display × Bool) (y : Nibble) :
    (s.paint p).reg y = if y = vf then flagByte p.2 else s.reg y := by
  rw [State.paint, State.reg_advance, State.reg_emit, State.reg_setReg]
  rfl

theorem flagByte_eq_one_iff (b : Bool) : flagByte b = 1 ↔ b = true := by cases b <;> decide

theorem flagByte_eq_zero_or_one (b : Bool) : flagByte b = 0 ∨ flagByte b = 1 := by cases b <;> decide

@[simp] theorem State.length_regBlock (x : Nibble) : (s.regBlock x).length = x.toNat + 1 := by
  simp only [State.regBlock, List.length_take, Vector.length_toList]
  have := x.isLt
  omega

/-- Entry `k` of the block is `V[k]` (spec/43_index_memory.md R194). -/
theorem State.getElem_regBlock (x k : Nibble) (h : k.toNat < (s.regBlock x).length) :
    (s.regBlock x)[k.toNat] = s.reg k := by
  simp [State.regBlock, State.reg]

/-- The first `n` registers hold the bytes at `a`, the others keep their values (spec/43_index_memory.md R195). -/
theorem getElem_loadBlock (m : Memory) (a : Nat) (v : Vector Byte 16) (n k : Nat) (hk : k < 16) :
    (loadBlock m a v n)[k] = if k < n then m.read (a + k) else v[k] := by
  induction n with
  | zero => simp [loadBlock]
  | succ n ih =>
    rw [loadBlock, Vector.getElem_setIfInBounds, ih]
    by_cases h : n = k
    · simp [h]
    · rw [if_neg h]
      by_cases hlt : k < n
      · rw [if_pos hlt, if_pos (by omega)]
      · rw [if_neg hlt, if_neg (by omega)]

end Sys2Proof.Machine
end

