-- ==== Sys2Proof/Laws/Ops.lean ====
section
/-! SUPPORT. What each shared operation that can stop an instruction can do, once: later proofs cite these and do not
unfold the operations. -/

namespace Sys2Proof.Machine

/-- A fatal condition is a next state (spec/60_exceptions.md R252). -/
theorem fatal_eq_next {c : Cause} {s t : State} (h : fatal c s = .next t) : t = s.raise c := by
  simpa [fatal, eq_comm] using h

/-- What an instruction that sends a message answers. -/
theorem sending_eq_next {s t : State} {k : Result} (h : sending s k = .next t) :
    (s.sinkOpen = true ∧ k = .next t) ∨ (s.sinkOpen = false ∧ t = s.raise .outputSendFailure) := by
  unfold sending at h
  split at h
  · next hs => exact .inl ⟨hs, h⟩
  · next hs => exact .inr ⟨by simpa using hs, fatal_eq_next h⟩

/-- What an instruction that accesses memory answers. -/
theorem accessing_eq_next {highest : Nat} {s t : State} {k : Result} (h : accessing highest s k = .next t) :
    (highest ≤ topAddress ∧ k = .next t) ∨ (topAddress < highest ∧ t = s.raise .memoryBounds) := by
  unfold accessing at h
  split at h
  · next hb => exact .inr ⟨hb, fatal_eq_next h⟩
  · next hb => exact .inl ⟨by omega, h⟩

theorem accessing_of_le {highest : Nat} (s : State) (k : Result) (h : highest ≤ topAddress) :
    accessing highest s k = k := if_neg (by omega)

theorem accessing_of_lt {highest : Nat} (s : State) (k : Result) (h : topAddress < highest) :
    accessing highest s k = fatal .memoryBounds s := if_pos h

theorem sending_of_open {s : State} (k : Result) (h : s.sinkOpen = true) : sending s k = k := if_pos h

theorem sending_of_closed {s : State} (k : Result) (h : s.sinkOpen = false) :
    sending s k = fatal .outputSendFailure s := if_neg (by simp [h])

/-- A fetch succeeds exactly when both bytes lie in memory (spec/20_memory.md R64). -/
theorem State.fetch_eq_some_iff (s : State) (w : Word) :
    s.fetch = some w ↔
      s.pc.toNat + 1 ≤ topAddress ∧ joinBytes (s.mem.read s.pc.toNat) (s.mem.read (s.pc.toNat + 1)) = w := by
  unfold State.fetch
  split
  · next h =>
    constructor
    · intro h'; cases h'
    · intro h'; omega
  · next h =>
    simp only [Option.some.injEq]
    constructor
    · intro h'; exact ⟨by omega, h'⟩
    · intro h'; exact h'.2

/-- Everything the fetch and dispatch of a step can do (spec/40_cycle.md R121, spec/60_exceptions.md R259). -/
theorem fetchExecute_cases (s : State) :
    (s.fetch = none ∧ fetchExecute s = fatal .memoryBounds s) ∨
    (∃ w, s.fetch = some w ∧ decodeWord w = none ∧ fetchExecute s = fatal .unrecognizedOpcode s) ∨
    (∃ w i, s.fetch = some w ∧ decodeWord w = some i ∧ fetchExecute s = exec i s) := by
  unfold fetchExecute
  split
  · next h => exact .inl ⟨h, rfl⟩
  · next w h =>
    split
    · next hd => exact .inr (.inl ⟨w, h, hd, rfl⟩)
    · next i hd => exact .inr (.inr ⟨w, i, h, hd, rfl⟩)

/-- Everything an engine turn can do. -/
theorem engineTurn_cases (s : State) :
    (s.halt = true ∧ engineTurn s = .fault (.halted s.cause)) ∨
    (s.halt = false ∧ engineTurn s = fetchExecute { s with executing := true }) := by
  unfold engineTurn
  cases s.halt <;> simp

/-- An engine that holds has an `Fx0A` at `PC` (spec/10_state.md R33). -/
theorem State.holding_iff (s : State) :
    s.holding = true ↔ s.halt = false ∧ s.keyReport = none ∧ ∃ x, s.current = some (.ldVxK x) := by
  unfold State.holding
  constructor
  · intro h
    split at h
    · next x hx => simp_all
    · simp at h
  · rintro ⟨h1, h2, x, hx⟩
    simp [h1, h2, hx]

/-- Everything a step can do: the engine's turn when nobody is named, or the turn the agenda names. -/
theorem step_cases (s : State) :
    (s.agenda = [] ∧ step s = engineTurn s) ∨
    (∃ t rest, s.agenda = t :: rest ∧ step s = takeTurn t { s with agenda := rest }) := by
  unfold step
  split
  · next h => exact .inl ⟨h, rfl⟩
  · next t rest h => exact .inr ⟨t, rest, h, rfl⟩

end Sys2Proof.Machine
end

