-- ==== Sys2Proof/Laws/PerInstr.lean ====
section
/-! SUPPORT. The family `EncodesInRow`: the word an instruction is encoded as lies in the instruction's row of the opcode map
(spec/30_encoding.md R96), one lemma per constructor. -/

namespace Sys2Proof.Laws.EncodesInRow

/-- `(encodeWord i AND mask) = match` for the row of `i`. -/
def Statement (i : Instr) : Prop := encodeWord i &&& (tableRow i).2 = (tableRow i).1

theorem cls : Statement .cls := by unfold Statement; decide
theorem ret : Statement .ret := by unfold Statement; decide
theorem jp (nnn : Addr) : Statement (.jp nnn) := (wordA_mask _ _).trans rfl
theorem call (nnn : Addr) : Statement (.call nnn) := (wordA_mask _ _).trans rfl
theorem seImm (x : Nibble) (kk : Byte) : Statement (.seImm x kk) := (wordXK_mask _ _ _).trans rfl
theorem sneImm (x : Nibble) (kk : Byte) : Statement (.sneImm x kk) := (wordXK_mask _ _ _).trans rfl
theorem seReg (x y : Nibble) : Statement (.seReg x y) := (wordXY_mask _ _ _ _).trans rfl
theorem ldImm (x : Nibble) (kk : Byte) : Statement (.ldImm x kk) := (wordXK_mask _ _ _).trans rfl
theorem addImm (x : Nibble) (kk : Byte) : Statement (.addImm x kk) := (wordXK_mask _ _ _).trans rfl
theorem ldReg (x y : Nibble) : Statement (.ldReg x y) := (wordXY_mask _ _ _ _).trans rfl
theorem orReg (x y : Nibble) : Statement (.orReg x y) := (wordXY_mask _ _ _ _).trans rfl
theorem andReg (x y : Nibble) : Statement (.andReg x y) := (wordXY_mask _ _ _ _).trans rfl
theorem xorReg (x y : Nibble) : Statement (.xorReg x y) := (wordXY_mask _ _ _ _).trans rfl
theorem addReg (x y : Nibble) : Statement (.addReg x y) := (wordXY_mask _ _ _ _).trans rfl
theorem subReg (x y : Nibble) : Statement (.subReg x y) := (wordXY_mask _ _ _ _).trans rfl
theorem shr (x y : Nibble) : Statement (.shr x y) := (wordXY_mask _ _ _ _).trans rfl
theorem subn (x y : Nibble) : Statement (.subn x y) := (wordXY_mask _ _ _ _).trans rfl
theorem shl (x y : Nibble) : Statement (.shl x y) := (wordXY_mask _ _ _ _).trans rfl
theorem sneReg (x y : Nibble) : Statement (.sneReg x y) := (wordXY_mask _ _ _ _).trans rfl
theorem ldI (nnn : Addr) : Statement (.ldI nnn) := (wordA_mask _ _).trans rfl
theorem jpV0 (nnn : Addr) : Statement (.jpV0 nnn) := (wordA_mask _ _).trans rfl
theorem rnd (x : Nibble) (kk : Byte) : Statement (.rnd x kk) := (wordXK_mask _ _ _).trans rfl
theorem drw (x y n : Nibble) : Statement (.drw x y n) := (wordXYN_mask _ _ _ _).trans rfl
theorem skp (x : Nibble) : Statement (.skp x) := (wordXS_mask _ _ _).trans rfl
theorem sknp (x : Nibble) : Statement (.sknp x) := (wordXS_mask _ _ _).trans rfl
theorem ldVxDt (x : Nibble) : Statement (.ldVxDt x) := (wordXS_mask _ _ _).trans rfl
theorem ldVxK (x : Nibble) : Statement (.ldVxK x) := (wordXS_mask _ _ _).trans rfl
theorem ldDtVx (x : Nibble) : Statement (.ldDtVx x) := (wordXS_mask _ _ _).trans rfl
theorem ldStVx (x : Nibble) : Statement (.ldStVx x) := (wordXS_mask _ _ _).trans rfl
theorem addI (x : Nibble) : Statement (.addI x) := (wordXS_mask _ _ _).trans rfl
theorem ldF (x : Nibble) : Statement (.ldF x) := (wordXS_mask _ _ _).trans rfl
theorem ldB (x : Nibble) : Statement (.ldB x) := (wordXS_mask _ _ _).trans rfl
theorem storeRegs (x : Nibble) : Statement (.storeRegs x) := (wordXS_mask _ _ _).trans rfl
theorem loadRegs (x : Nibble) : Statement (.loadRegs x) := (wordXS_mask _ _ _).trans rfl

end Sys2Proof.Laws.EncodesInRow
end

