-- ==== Sys2Proof/Laws/Sprite.lean ====
section
/-! SUPPORT. The laws of the display buffer, of one XORed pixel, and of a whole sprite: the loops of
spec/44_display.md R211 in closed form, pixel by pixel. -/

namespace Sys2Proof.Machine

@[simp] theorem Display.pixel_blank (r : Fin 32) (c : Fin 64) : Display.blank.pixel r c = false := by
  simp [Display.pixel, Display.blank]

/-- A pixel after a pixel write. -/
@[simp] theorem Display.pixel_setPixel (d : Display) (r r' : Fin 32) (c c' : Fin 64) (b : Bool) :
    (d.setPixel r c b).pixel r' c' = if r' = r ∧ c' = c then b else d.pixel r' c' := by
  simp only [Display.pixel, Display.setPixel, Fin.getElem_fin, Vector.getElem_set, Fin.val_inj]
  by_cases hr : r' = r
  · subst hr
    simp only [if_true, Vector.getElem_set, Fin.val_inj, true_and]
    by_cases hc : c' = c
    · simp [hc]
    · simp [hc, Ne.symm hc]
  · simp [hr, Ne.symm hr]

/-- Two displays with the same pixels are equal. -/
theorem Display.ext_pixel {d e : Display} (h : ∀ r c, d.pixel r c = e.pixel r c) : d = e := by
  apply Vector.ext
  intro r hr
  apply Vector.ext
  intro c hc
  exact h ⟨r, hr⟩ ⟨c, hc⟩

/-- A pixel after one XOR (spec/44_display.md R211). -/
@[simp] theorem plot_pixel (p : Display × Bool) (r r' : Fin 32) (c c' : Fin 64) (b : Bool) :
    (plot p r c b).1.pixel r' c' = if r' = r ∧ c' = c then p.1.pixel r c ^^ b else p.1.pixel r' c' := by
  simp only [plot, Display.pixel_setPixel]

/-- The collision flag after one XOR (spec/44_display.md R212). -/
@[simp] theorem plot_collision (p : Display × Bool) (r : Fin 32) (c : Fin 64) (b : Bool) :
    (plot p r c b).2 = (p.2 || (p.1.pixel r c && b)) := rfl

theorem drawRow_succ (b : Byte) (row : Fin 32) (x0 : Nat) (p : Display × Bool) (c : Nat) :
    drawRow b row x0 p (c + 1) = plot (drawRow b row x0 p c) row (Fin.ofNat 64 (x0 + c)) (b.getLsbD (7 - c)) := rfl

theorem drawSprite_succ (m : Memory) (a x0 y0 : Nat) (p : Display × Bool) (r : Nat) :
    drawSprite m a x0 y0 p (r + 1) =
      drawRow (m.read (a + r)) (Fin.ofNat 32 (y0 + r)) x0 (drawSprite m a x0 y0 p r) 8 := rfl

/-- The sprite column that a row with its left edge at `x0` puts on column `c`. -/
def spriteCol (x0 : Nat) (c : Fin 64) : Nat := (c.val + 64 - x0 % 64) % 64

/-- The sprite row that a sprite with its top edge at `y0` puts on row `r`. -/
def spriteRow (y0 : Nat) (r : Fin 32) : Nat := (r.val + 32 - y0 % 32) % 32

theorem eq_ofNat_iff_spriteCol (x0 k : Nat) (hk : k < 64) (c : Fin 64) :
    c = Fin.ofNat 64 (x0 + k) ↔ spriteCol x0 c = k := by
  rw [Fin.ext_iff, Fin.val_ofNat, spriteCol]
  omega

theorem eq_ofNat_iff_spriteRow (y0 k : Nat) (hk : k < 32) (r : Fin 32) :
    r = Fin.ofNat 32 (y0 + k) ↔ spriteRow y0 r = k := by
  rw [Fin.ext_iff, Fin.val_ofNat, spriteRow]
  omega

/-- A pixel after `n` columns of a sprite row. -/
theorem drawRow_pixel (b : Byte) (row : Fin 32) (x0 : Nat) (p : Display × Bool) (n : Nat) (hn : n ≤ 8) (r : Fin 32)
    (c : Fin 64) :
    (drawRow b row x0 p n).1.pixel r c =
      (p.1.pixel r c ^^ (decide (r = row) && decide (spriteCol x0 c < n) && b.getLsbD (7 - spriteCol x0 c))) := by
  induction n with
  | zero => simp [drawRow]
  | succ n ih =>
    rw [drawRow_succ, plot_pixel]
    simp only [eq_ofNat_iff_spriteCol x0 n (by omega)]
    by_cases h : r = row ∧ spriteCol x0 c = n
    · obtain ⟨rfl, hc⟩ := h
      have hc' : c = Fin.ofNat 64 (x0 + n) := (eq_ofNat_iff_spriteCol x0 n (by omega) c).mpr hc
      rw [if_pos ⟨rfl, hc⟩, ← hc', ih (by omega), hc]
      simp
    · rw [if_neg h, ih (by omega)]
      by_cases hr : r = row
      · have : ¬ spriteCol x0 c = n := fun hc => h ⟨hr, hc⟩
        rw [show decide (spriteCol x0 c < n + 1) = decide (spriteCol x0 c < n) from decide_eq_decide.mpr (by omega)]
      · simp [hr]

/-- The collision flag after `n` columns of a sprite row. -/
theorem drawRow_collision (b : Byte) (row : Fin 32) (x0 : Nat) (p : Display × Bool) (n : Nat) (hn : n ≤ 8) :
    (drawRow b row x0 p n).2 = true ↔
      p.2 = true ∨ ∃ c, p.1.pixel row c = true ∧ spriteCol x0 c < n ∧ b.getLsbD (7 - spriteCol x0 c) = true := by
  induction n with
  | zero => simp [drawRow]
  | succ n ih =>
    rw [drawRow_succ, plot_collision, Bool.or_eq_true, Bool.and_eq_true, ih (by omega), drawRow_pixel _ _ _ _ _ (by omega)]
    have hcol : spriteCol x0 (Fin.ofNat 64 (x0 + n)) = n := (eq_ofNat_iff_spriteCol x0 n (by omega) _).mp rfl
    constructor
    · rintro ((h | ⟨c, h1, h2, h3⟩) | ⟨h1, h2⟩)
      · exact .inl h
      · exact .inr ⟨c, h1, by omega, h3⟩
      · refine .inr ⟨Fin.ofNat 64 (x0 + n), ?_, by omega, by rw [hcol]; exact h2⟩
        rw [hcol, decide_eq_false (Nat.lt_irrefl n), Bool.and_false, Bool.false_and, Bool.xor_false] at h1
        exact h1
    · rintro (h | ⟨c, h1, h2, h3⟩)
      · exact .inl (.inl h)
      · by_cases hc : spriteCol x0 c = n
        · have hc' : c = Fin.ofNat 64 (x0 + n) := (eq_ofNat_iff_spriteCol x0 n (by omega) c).mpr hc
          rw [hc] at h3
          refine .inr ⟨?_, h3⟩
          rw [hcol, ← hc']
          simpa using h1
        · exact .inl (.inr ⟨c, h1, by omega, h3⟩)

theorem spriteBit_eq (m : Memory) (a x0 y0 n : Nat) (r : Fin 32) (c : Fin 64) :
    spriteBit m a x0 y0 n r c =
      (decide (spriteRow y0 r < n) && decide (spriteCol x0 c < 8) &&
        (m.read (a + spriteRow y0 r)).getLsbD (7 - spriteCol x0 c)) := rfl

/-- A pixel after a whole sprite: XORed with the sprite bit that wraps onto it. -/
theorem drawSprite_pixel (m : Memory) (a x0 y0 : Nat) (p : Display × Bool) (n : Nat) (hn : n ≤ 32) (r : Fin 32)
    (c : Fin 64) :
    (drawSprite m a x0 y0 p n).1.pixel r c = (p.1.pixel r c ^^ spriteBit m a x0 y0 n r c) := by
  induction n with
  | zero => simp [drawSprite, spriteBit_eq]
  | succ n ih =>
    rw [drawSprite_succ, drawRow_pixel _ _ _ _ _ (by omega), ih (by omega), spriteBit_eq, spriteBit_eq]
    simp only [eq_ofNat_iff_spriteRow y0 n (by omega)]
    by_cases h : spriteRow y0 r = n
    · simp [h]
    · rw [show decide (spriteRow y0 r < n + 1) = decide (spriteRow y0 r < n) from decide_eq_decide.mpr (by omega)]
      simp [h]

/-- The collision flag after a whole sprite: some set pixel met a set sprite bit. -/
theorem drawSprite_collision (m : Memory) (a x0 y0 : Nat) (p : Display × Bool) (n : Nat) (hn : n ≤ 32) :
    (drawSprite m a x0 y0 p n).2 = true ↔
      p.2 = true ∨ ∃ r c, p.1.pixel r c = true ∧ spriteBit m a x0 y0 n r c = true := by
  induction n with
  | zero => simp [drawSprite, spriteBit_eq]
  | succ n ih =>
    rw [drawSprite_succ, drawRow_collision _ _ _ _ _ (by omega), ih (by omega)]
    have hrow : spriteRow y0 (Fin.ofNat 32 (y0 + n)) = n := (eq_ofNat_iff_spriteRow y0 n (by omega) _).mp rfl
    have hold : ∀ c, (drawSprite m a x0 y0 p n).1.pixel (Fin.ofNat 32 (y0 + n)) c =
        p.1.pixel (Fin.ofNat 32 (y0 + n)) c := by
      intro c
      rw [drawSprite_pixel _ _ _ _ _ _ (by omega), spriteBit_eq, hrow]
      simp
    constructor
    · rintro ((h | ⟨r, c, h1, h2⟩) | ⟨c, h1, h2, h3⟩)
      · exact .inl h
      · refine .inr ⟨r, c, h1, ?_⟩
        rw [spriteBit_eq] at h2 ⊢
        simp only [Bool.and_eq_true, decide_eq_true_eq] at h2 ⊢
        exact ⟨⟨by omega, h2.1.2⟩, h2.2⟩
      · refine .inr ⟨Fin.ofNat 32 (y0 + n), c, (hold c) ▸ h1, ?_⟩
        rw [spriteBit_eq, hrow]
        simp only [Bool.and_eq_true, decide_eq_true_eq]
        exact ⟨⟨by omega, h2⟩, h3⟩
    · rintro (h | ⟨r, c, h1, h2⟩)
      · exact .inl (.inl h)
      · rw [spriteBit_eq] at h2
        simp only [Bool.and_eq_true, decide_eq_true_eq] at h2
        by_cases hr : spriteRow y0 r = n
        · have hr' : r = Fin.ofNat 32 (y0 + n) := (eq_ofNat_iff_spriteRow y0 n (by omega) r).mpr hr
          refine .inr ⟨c, ?_, h2.1.2, ?_⟩
          · rw [hold, ← hr']; exact h1
          · rw [← hr]; exact h2.2
        · refine .inl (.inr ⟨r, c, h1, ?_⟩)
          rw [spriteBit_eq]
          simp only [Bool.and_eq_true, decide_eq_true_eq]
          exact ⟨⟨by omega, h2.1.2⟩, h2.2⟩

end Sys2Proof.Machine
end

