-- ==== Sys2Proof/Tests/Slice0.lean ====
section
/-! SUPPORT. Small tests on fixed values. What is expected comes from spec/95_test_vectors.md, whose row stands in the comment
of each test, or from the encodings of spec/30_encoding.md R96. The theorems named `witness_<Obligation>` show a state and
operands that meet the hypotheses of that statement, at a boundary of their range where it has one. -/

namespace Sys2Proof.Tests

open Sys2Proof.Machine

/-! ### Well-formedness: what each check refuses -/

/-- `FONT_BASE` with its last byte at 0x1FF is admitted, one higher is not (R192). -/
theorem test_params_wellFormed :
    ({ defaultParams with fontBase := 0x1B0 } : Params).wellFormed = true ∧
    ({ defaultParams with fontBase := 0x1B1 } : Params).wellFormed = false := by decide

/-- 3584 bytes fit, 3585 do not (X11, X12). -/
theorem test_programFits :
    programFits (List.replicate 3584 0x00) = true ∧ programFits (List.replicate 3585 0x00) = false := by
  simp only [programFits, List.length_replicate]; decide

/-! ### Decoding: a word for each constructor, from V-DEC where it has one and else from the pattern of R96 -/

theorem test_decode_flow :
    decode [0x00, 0xE0] = .instr .cls [] ∧ decode [0x00, 0xEE] = .instr .ret [] ∧
    decode [0x1A, 0xBC] = .instr (.jp 0xABC) [] ∧ decode [0x2F, 0xFF] = .instr (.call 0xFFF) [] ∧
    decode [0xB1, 0x23] = .instr (.jpV0 0x123) [] := by decide

theorem test_decode_skips :
    decode [0x3A, 0x7F] = .instr (.seImm 0xA 0x7F) [] ∧ decode [0x4B, 0x81] = .instr (.sneImm 0xB 0x81) [] ∧
    decode [0x51, 0x20] = .instr (.seReg 1 2) [] ∧ decode [0x91, 0x20] = .instr (.sneReg 1 2) [] ∧
    decode [0xE1, 0x9E] = .instr (.skp 1) [] ∧ decode [0xE1, 0xA1] = .instr (.sknp 1) [] := by decide

theorem test_decode_immediates :
    decode [0x60, 0x0A] = .instr (.ldImm 0 0x0A) [] ∧ decode [0x72, 0xFF] = .instr (.addImm 2 0xFF) [] ∧
    decode [0xC3, 0x0F] = .instr (.rnd 3 0x0F) [] ∧ decode [0xA2, 0xF0] = .instr (.ldI 0x2F0) [] := by decide

theorem test_decode_alu :
    decode [0x8A, 0xB0] = .instr (.ldReg 0xA 0xB) [] ∧ decode [0x8A, 0xB1] = .instr (.orReg 0xA 0xB) [] ∧
    decode [0x8A, 0xB2] = .instr (.andReg 0xA 0xB) [] ∧ decode [0x8A, 0xB3] = .instr (.xorReg 0xA 0xB) [] ∧
    decode [0x8A, 0xB4] = .instr (.addReg 0xA 0xB) [] ∧ decode [0x8A, 0xB5] = .instr (.subReg 0xA 0xB) [] ∧
    decode [0x8A, 0xB6] = .instr (.shr 0xA 0xB) [] ∧ decode [0x8A, 0xB7] = .instr (.subn 0xA 0xB) [] ∧
    decode [0x8A, 0xBE] = .instr (.shl 0xA 0xB) [] := by decide

theorem test_decode_draw :
    decode [0xD1, 0x2F] = .instr (.drw 1 2 15) [] ∧ decode [0xD1, 0x20] = .instr (.drw 1 2 0) [] := by decide

theorem test_decode_misc :
    decode [0xF1, 0x07] = .instr (.ldVxDt 1) [] ∧ decode [0xF1, 0x0A] = .instr (.ldVxK 1) [] ∧
    decode [0xF1, 0x15] = .instr (.ldDtVx 1) [] ∧ decode [0xF1, 0x18] = .instr (.ldStVx 1) [] ∧
    decode [0xF1, 0x1E] = .instr (.addI 1) [] ∧ decode [0xF1, 0x29] = .instr (.ldF 1) [] ∧
    decode [0xF1, 0x33] = .instr (.ldB 1) [] ∧ decode [0xF1, 0x55] = .instr (.storeRegs 1) [] ∧
    decode [0xF1, 0x65] = .instr (.loadRegs 1) [] := by decide

/-- The unrecognized words that V-DEC names. -/
theorem test_decode_unrecognized :
    ([0x0000, 0x00E1, 0x00EF, 0x01E0, 0x0AEE, 0x0123, 0x5121, 0x512F, 0x8AB8, 0x8AB9, 0x8ABA, 0x8ABB, 0x8ABC, 0x8ABD, 0x8ABF,
      0x9121, 0xE19F, 0xE100, 0xE1A0, 0xF100, 0xF175, 0xF185, 0xF130, 0xF1FF, 0xF102] : List Word).all
      (fun w => (decodeWord w).isNone) = true := by decide

/-- Fewer than two bytes are no instruction; bytes after the instruction are left. -/
theorem test_decode_lengths :
    decode [] = .reject .truncated ∧ decode [0x60] = .reject .truncated ∧
    decode [0x60, 0x0A, 0x61] = .instr (.ldImm 0 0x0A) [0x61] := by decide

theorem test_decodeTableWord : decodeTableWord 16 0x8014 = some (.addReg 0 1) ∧ decodeTableWord 16 0x0000 = none := by decide

/-! ### One step -/

/-- A register file as a state after power-on. -/
def regs (l : List (Nibble × Byte)) : State := l.foldl (fun s p => s.setReg p.1 p.2) State.reset

/-- The state after the step that fetches `w`; `none` if there is none. -/
def after (w : Nat) (s : State) : Option State :=
  match step (s.withFetchWord 16 w) with
  | .next t => some t
  | .fault _ => none
  | .refused _ => none

/-- Two registers and `PC` after the step. -/
def seen (x y : Nibble) (w : Nat) (s : State) : Option (Byte × Byte × Word) :=
  (after w s).map fun t => (t.reg x, t.reg y, t.pc)

/-- `HALT`, `CAUSE` and `PC` after the step. -/
def outcome (w : Nat) (s : State) : Option (Bool × Cause × Word) :=
  (after w s).map fun t => (t.halt, t.cause, t.pc)

/-- S1: the step that adds. -/
theorem test_S1 : seen 0 0xF 0x8014 { regs [(0, 0x0A), (1, 0x05)] with pc := 0x204 } = some (0x0F, 0x00, 0x206) := by decide

/-- F1, F12 to F14 and R143. -/
theorem test_jumps :
    (after 0x1ABC State.reset).map (·.pc) = some 0x0ABC ∧
    (after 0xBFFF (regs [(0, 0xFF)])).map (·.pc) = some 0x10FE ∧
    (after 0xB300 (regs [(3, 0x55)])).map (·.pc) = some 0x0300 := by decide

/-- F8 and F7. -/
theorem test_call :
    (after 0x2300 { State.reset with pc := 0x0FFE }).map (fun t => (t.pc, t.sp.val, t.stack[0])) = some (0x300, 1, 0x1000) ∧
    outcome 0x2300 { State.reset with sp := 16 } = some (true, .stackOverflow, 0x200) := by decide

/-- F11 and F10. -/
theorem test_ret :
    (after 0x00EE { State.reset with sp := 2, stack := (State.reset.stack.set 0 0x0AAA).set 1 0x0BBB }).map
      (fun t => (t.pc, t.sp.val)) = some (0x0BBB, 1) ∧
    outcome 0x00EE State.reset = some (true, .stackUnderflow, 0x200) := by decide

/-- F15, F16, F26. -/
theorem test_seImm :
    (after 0x332A (regs [(3, 0x2A)])).map (·.pc) = some 0x204 ∧ (after 0x332A (regs [(3, 0x2B)])).map (·.pc) = some 0x202 ∧
    (after 0x3000 { State.reset with pc := 0x0FFC }).map (·.pc) = some 0x1000 := by decide

/-- F17, F18. -/
theorem test_sneImm :
    (after 0x432A (regs [(3, 0x2A)])).map (·.pc) = some 0x202 ∧ (after 0x432A State.reset).map (·.pc) = some 0x204 := by decide

/-- F19, F20. -/
theorem test_seReg :
    (after 0x5120 (regs [(1, 7), (2, 7)])).map (·.pc) = some 0x204 ∧
    (after 0x5120 (regs [(1, 7), (2, 8)])).map (·.pc) = some 0x202 := by decide

/-- F22, F23. -/
theorem test_sneReg :
    (after 0x9120 (regs [(1, 7), (2, 8)])).map (·.pc) = some 0x204 ∧
    (after 0x9120 (regs [(1, 7), (2, 7)])).map (·.pc) = some 0x202 := by decide

/-- A44, A41. -/
theorem test_ldImm :
    seen 0 0xF 0x600A State.reset = some (0x0A, 0, 0x202) ∧ seen 0 0xF 0x6F07 State.reset = some (0, 0x07, 0x202) := by decide

/-- A46, A42. -/
theorem test_addImm :
    seen 2 0xF 0x7202 (regs [(2, 0xFF), (0xF, 0xAA)]) = some (0x01, 0xAA, 0x202) ∧
    seen 0 0xF 0x7F02 (regs [(0xF, 0xFF)]) = some (0, 0x01, 0x202) := by decide

/-- A1. -/
theorem test_ldReg : seen 0 0xF 0x8010 (regs [(0, 0x12), (1, 0x33), (0xF, 0xAA)]) = some (0x33, 0xAA, 0x202) := by decide

/-- A2, A3, A4. -/
theorem test_logic :
    seen 0 0xF 0x8011 (regs [(0, 0xF0), (1, 0x0F), (0xF, 0xAA)]) = some (0xFF, 0xAA, 0x202) ∧
    seen 0 0xF 0x8012 (regs [(0, 0xF0), (1, 0x3C), (0xF, 0xAA)]) = some (0x30, 0xAA, 0x202) ∧
    seen 0 0xF 0x8013 (regs [(0, 0xF0), (1, 0x3C), (0xF, 0xAA)]) = some (0xCC, 0xAA, 0x202) := by decide

/-- A6, A7, A24. -/
theorem test_addReg :
    seen 0 0xF 0x8014 (regs [(0, 0xFE), (1, 0x01), (0xF, 0xAA)]) = some (0xFF, 0x00, 0x202) ∧
    seen 0 0xF 0x8014 (regs [(0, 0xFF), (1, 0x01), (0xF, 0xAA)]) = some (0x00, 0x01, 0x202) ∧
    seen 0 0xF 0x8004 (regs [(0, 0x80)]) = some (0x00, 0x01, 0x202) := by decide

/-- A32, A33: the flag wins over the sum. -/
theorem test_addReg_vf :
    seen 0xF 1 0x8F14 (regs [(0xF, 0xFF), (1, 0x02)]) = some (0x01, 0x02, 0x202) ∧
    seen 0xF 1 0x8F14 (regs [(0xF, 0x01), (1, 0x02)]) = some (0x00, 0x02, 0x202) := by decide

/-- A9, A10, A11: equal operands give 0. -/
theorem test_subReg :
    seen 0 0xF 0x8015 (regs [(0, 0x0A), (1, 0x05), (0xF, 0xAA)]) = some (0x05, 0x01, 0x202) ∧
    seen 0 0xF 0x8015 (regs [(0, 0x05), (1, 0x0A), (0xF, 0xAA)]) = some (0xFB, 0x00, 0x202) ∧
    seen 0 0xF 0x8015 (regs [(0, 0x07), (1, 0x07), (0xF, 0xAA)]) = some (0x00, 0x00, 0x202) := by decide

/-- A15, A16, A17. -/
theorem test_subn :
    seen 0 0xF 0x8017 (regs [(0, 0x05), (1, 0x0A), (0xF, 0xAA)]) = some (0x05, 0x01, 0x202) ∧
    seen 0 0xF 0x8017 (regs [(0, 0x0A), (1, 0x05), (0xF, 0xAA)]) = some (0xFB, 0x00, 0x202) ∧
    seen 0 0xF 0x8017 (regs [(0, 0x07), (1, 0x07), (0xF, 0xAA)]) = some (0x00, 0x00, 0x202) := by decide

/-- The parameters with the other shift source. -/
def shiftsVy : Params := { defaultParams with shiftSrc := .vy }

/-- A18 for both settings, A38. -/
theorem test_shr :
    seen 0 0xF 0x8016 (regs [(0, 0x05), (1, 0x08), (0xF, 0xAA)]) = some (0x02, 0x01, 0x202) ∧
    seen 0 0xF 0x8016 { regs [(0, 0x05), (1, 0x08), (0xF, 0xAA)] with params := shiftsVy } = some (0x04, 0x00, 0x202) ∧
    seen 0xF 0 0x8FF6 (regs [(0xF, 0x03)]) = some (0x01, 0, 0x202) := by decide

/-- A21 and A22 for both settings. -/
theorem test_shl :
    seen 0 0xF 0x801E (regs [(0, 0x81), (1, 0x40), (0xF, 0xAA)]) = some (0x02, 0x01, 0x202) ∧
    seen 0 0xF 0x801E { regs [(0, 0x81), (1, 0x40), (0xF, 0xAA)] with params := shiftsVy } = some (0x80, 0x00, 0x202) ∧
    seen 0 0xF 0x801E { regs [(0, 0x7F), (1, 0x80), (0xF, 0xAA)] with params := shiftsVy } = some (0x00, 0x01, 0x202) := by decide

/-- A50: the one draw whose result is known. -/
theorem test_rnd : (after 0xC300 (regs [(3, 0x55)])).map (fun t => (t.pc, t.draws)) = some (0x202, 1) := by decide

/-- M1, M2. -/
theorem test_ldI :
    (after 0xA2F0 State.reset).map (fun t => (t.i, t.pc)) = some (0x02F0, 0x202) ∧
    (after 0xA000 { State.reset with i := 0xFFFF }).map (·.i) = some 0 := by decide

/-- M4, M5. -/
theorem test_addI :
    (after 0xF21E { regs [(2, 0x01)] with i := 0x0FFF }).map (fun t => (t.i, t.reg vf, t.halt)) = some (0x1000, 0, false) ∧
    (after 0xF21E { regs [(2, 0x01)] with i := 0xFFFF }).map (fun t => (t.i, t.reg vf)) = some (0x0000, 0) := by decide

/-- M8, M9. -/
theorem test_ldF :
    (after 0xF429 (regs [(4, 0x0F)])).map (·.i) = some 0x004B ∧
    (after 0xF429 (regs [(4, 0x1A)])).map (·.i) = some 0x0032 := by decide

/-- M13. -/
theorem test_ldB :
    (after 0xF133 { regs [(1, 0x7B)] with i := 0x0FFD }).map (fun t => (t.mem.readBytes 0xFFD 3, t.i, t.halt)) =
      some ([1, 2, 3], 0x0FFD, false) := by decide

/-- M14: nothing is written. -/
theorem test_ldB_bounds :
    (after 0xF133 { regs [(1, 0x7B)] with i := 0x0FFE }).map (fun t => (t.mem.readBytes 0xFFE 2, t.halt, t.cause, t.pc)) =
      some ([0, 0], true, .memoryBounds, 0x200) := by decide

/-- M15. -/
theorem test_storeRegs :
    (after 0xF255 { regs [(0, 0x11), (1, 0x22), (2, 0x33), (3, 0x44)] with i := 0x0400 }).map
      (fun t => (t.mem.readBytes 0x400 4, t.i)) = some ([0x11, 0x22, 0x33, 0x00], 0x0400) := by decide

/-- M19, M20. -/
theorem test_storeRegs_bounds :
    (after 0xF055 { regs [(0, 0x11)] with i := 0x0FFF }).map (fun t => (t.mem.read 0xFFF, t.halt)) = some (0x11, false) ∧
    outcome 0xF055 { regs [(0, 0x11)] with i := 0x1000 } = some (true, .memoryBounds, 0x200) := by decide

/-- M25: the digit 0 of the default font. -/
theorem test_loadRegs :
    (after 0xF465 (regs [(5, 0x77)])).map (fun t => ((List.finRange 6).map fun k => t.v[k], t.i)) =
      some ([0xF0, 0x90, 0x90, 0x90, 0xF0, 0x77], 0x0005) := by decide

/-- M24 and the last legal block (M23 for its `I`). -/
theorem test_loadRegs_bounds :
    outcome 0xFF65 { State.reset with i := 0x0FF1 } = some (true, .memoryBounds, 0x200) ∧
    (after 0xFF65 { State.reset with i := 0x0FF0 }).map (fun t => (t.i, t.halt)) = some (0x1000, false) := by decide

/-- A state with one sprite row at 0x300, `I` there, and the coordinates in V0 and V1. -/
def drawing (row x y : Byte) : State := { regs [(0, x), (1, y)] with i := 0x300, mem := Memory.write [] 0x300 row }

/-- The set pixels of a row of the display. -/
def rowPixels (r : Fin 32) (d : Display) : List Nat :=
  ((List.finRange 64).filter fun c => d.pixel r c).map (·.val)

/-- G6 and S8: columns wrap. -/
theorem test_drw_wraps :
    (after 0xD011 (drawing 0xFF 60 0)).map (fun t => (rowPixels 0 t.disp, t.reg vf, t.pc)) =
      some ([0, 1, 2, 3, 60, 61, 62, 63], 0, 0x202) := by decide

/-- G12: one pixel erased, one set. -/
theorem test_drw_collision :
    (after 0xD011 { drawing 0xC0 0 0 with disp := Display.blank.setPixel 0 0 true }).map
      (fun t => (rowPixels 0 t.disp, t.reg vf)) = some ([1], 1) := by decide

/-- G1 and G3. -/
theorem test_cls :
    (after 0x00E0 { regs [(0xF, 0xAA)] with disp := Display.blank.setPixel 0 0 true }).map
      (fun t => (rowPixels 0 t.disp, t.out, t.reg vf, t.pc)) = some ([], [.clear], 0xAA, 0x202) ∧
    outcome 0x00E0 { State.reset with sinkOpen := false } = some (true, .outputSendFailure, 0x200) := by decide

/-- K1, K5. -/
theorem test_skp :
    (after 0xE29E ((regs [(2, 5)]).setKey 5 true)).map (·.pc) = some 0x204 ∧
    (after 0xE29E ((regs [(2, 5)]).setKey 2 true)).map (·.pc) = some 0x202 := by decide

/-- K3, K4. -/
theorem test_sknp :
    (after 0xE2A1 (regs [(2, 5)])).map (·.pc) = some 0x204 ∧
    (after 0xE2A1 ((regs [(2, 5)]).setKey 5 true)).map (·.pc) = some 0x202 := by decide

/-- K7: the hold. -/
theorem test_ldVxK_holds : seen 3 0 0xF30A (regs [(3, 0x55)]) = some (0x55, 0, 0x200) := by decide

/-- K8. -/
theorem test_ldVxK : seen 3 0 0xF30A { State.reset with keyReport := some 0xB } = some (0x0B, 0, 0x202) := by decide

/-- K10, K11, K12. -/
theorem test_timers :
    (after 0xF507 { State.reset with dt := 0x3C }).map (fun t => (t.reg 5, t.dt)) = some (0x3C, 0x3C) ∧
    (after 0xF515 (regs [(5, 0x3C)])).map (fun t => (t.dt, t.st)) = some (0x3C, 0) ∧
    (after 0xF518 (regs [(5, 0x02)])).map (fun t => (t.dt, t.st)) = some (0, 0x02) := by decide

/-- K14, K15. -/
theorem test_tick :
    (({ State.reset with dt := 3, st := 1 } : State).tick.dt, ({ State.reset with dt := 3, st := 1 } : State).tick.st) = (2, 0) ∧
    State.reset.tick = State.reset := by decide

/-- X5 and F13: the fetch is checked before the word is decoded. -/
theorem test_fetch_bounds :
    step { State.reset with pc := 0x0FFF } =
      .next { State.reset with pc := 0x0FFF, halt := true, cause := .memoryBounds, executing := true } := rfl

/-- X1: zeroed memory is no instruction. -/
theorem test_zero_word : outcome 0x0000 State.reset = some (true, .unrecognizedOpcode, 0x200) := by decide

/-- X3: a warm reset does not revive a halted engine. -/
theorem test_warmReset_halted : ((State.reset.raise .unrecognizedOpcode).warmReset.halt) = true := by decide

/-! ### Witnesses of the statements' hypotheses -/

/-- The state a meaning leaves, or `d` if there is none. -/
def nextOf (r : Result) (d : State) : State :=
  match r with
  | .next t => t
  | .fault _ => d
  | .refused _ => d

/-- A state about to execute the word `w` at 0x200. -/
def about (w : Nat) : State := State.reset.withFetchWord 16 w

theorem reset_moves : State.reset.EngineMoves [] := .inr ⟨rfl, rfl⟩

theorem witness_EncodeOfDecode : decode [0xFF, 0x65, 0x01] = .instr (.loadRegs 15) [0x01] := by decide

/-- The last address from which a fetch succeeds. -/
theorem witness_StepRunsDecodedInstruction :
    ∃ s : State, s.EngineMoves [] ∧ s.halt = false ∧ s.pc.toNat + 1 ≤ 0xFFF ∧
      decode [s.mem.read s.pc.toNat, s.mem.read (s.pc.toNat + 1)] = .instr (.ldImm 0 0) [] :=
  ⟨({ State.reset with pc := 0xFFE } : State).withFetchWord 16 0x6000, .inr ⟨rfl, rfl⟩, rfl, by decide, by decide⟩

theorem witness_FetchOutsideMemory :
    ∃ s : State, s.EngineMoves [.tick] ∧ s.halt = false ∧ 0xFFF ≤ s.pc.toNat :=
  ⟨{ State.reset with agenda := [.engine, .tick], pc := 0xFFF }, .inl rfl, rfl, by decide⟩

theorem witness_UnrecognizedWordIsFatal :
    ∃ s : State, s.EngineMoves [] ∧ s.halt = false ∧ s.pc.toNat + 1 ≤ 0xFFF ∧
      unrecognizedWord ((s.mem.read s.pc.toNat).toNat * 256 + (s.mem.read (s.pc.toNat + 1)).toNat) :=
  ⟨State.reset, reset_moves, rfl, by decide, by unfold unrecognizedWord; decide⟩

theorem witness_HaltedEngineHasNoStep : ∃ s : State, s.EngineMoves [] ∧ s.halt = true :=
  ⟨State.reset.raise .stackOverflow, .inr ⟨rfl, rfl⟩, rfl⟩

/-- A stack with room for one more entry, and a full one. -/
theorem witness_CallResult : (∃ s : State, s.sp.val < 16 ∧ s.sp.val = 15) ∧ ∃ s : State, s.sp.val = 16 :=
  ⟨⟨{ State.reset with sp := 15 }, by decide, rfl⟩, { State.reset with sp := 16 }, rfl⟩

/-- A full stack, and an empty one. -/
theorem witness_ReturnResult : (∃ s : State, 0 < s.sp.val ∧ s.sp.val = 16) ∧ ∃ s : State, s.sp.val = 0 :=
  ⟨⟨{ State.reset with sp := 16 }, by decide, rfl⟩, State.reset, rfl⟩

/-- S5 at its upper end. -/
theorem witness_CallThenReturn :
    ∃ s : State, s.agenda = [] ∧ s.halt = false ∧ s.sp.val < 16 ∧ s.current = some (.call 0xFFE) ∧
      (0xFFE : Addr).toNat ≤ 0xFFE ∧ s.mem.read (0xFFE : Addr).toNat = 0x00 ∧
      s.mem.read ((0xFFE : Addr).toNat + 1) = 0xEE :=
  ⟨({ State.reset with mem := Memory.write [] 0xFFF 0xEE } : State).withFetchWord 16 0x2FFE, rfl, rfl, by decide, by decide,
    by decide, by decide, by decide⟩

theorem witness_JumpToItselfRepeats :
    ∃ s : State, s.agenda = [] ∧ s.halt = false ∧ s.current = some (.jp 0x200) ∧ (0x200 : Addr).toNat = s.pc.toNat :=
  ⟨about 0x1200, rfl, rfl, by decide, by decide⟩

/-- The shifted byte for each setting. -/
theorem witness_ShiftResults :
    (0x05 : Byte) = (if (regs [(0, 0x05), (1, 0x08)]).params.shiftSrc = .vx then (regs [(0, 0x05), (1, 0x08)]).reg 0
      else (regs [(0, 0x05), (1, 0x08)]).reg 1) ∧
    ∃ s : State, s.params.shiftSrc = .vy ∧ (0 : Byte) = (if s.params.shiftSrc = .vx then s.reg 0 else s.reg 1) :=
  ⟨by decide, { State.reset with params := shiftsVy }, rfl, by decide⟩

/-- The last legal position. -/
theorem witness_DecimalStoreResult : ∃ s : State, s.mem.wf ∧ s.base + 2 ≤ 0xFFF :=
  ⟨{ State.reset with i := 0xFFD }, by decide, by decide⟩

/-- The longest block at the last legal position. -/
theorem witness_register_blocks : ∃ s : State, s.mem.wf ∧ s.base + (15 : Nibble).toNat ≤ 0xFFF :=
  ⟨{ State.reset with i := 0xFF0 }, by decide, by decide⟩

theorem witness_RegisterStoreResult : ∃ s : State, s.mem.wf ∧ s.base + (0 : Nibble).toNat ≤ 0xFFF :=
  ⟨{ State.reset with i := 0xFFF }, by decide, by decide⟩

theorem witness_RegisterLoadResult : ∃ s : State, s.base + (15 : Nibble).toNat ≤ 0xFFF :=
  witness_register_blocks.elim fun s h => ⟨s, h.2⟩

/-- The first illegal position for each of the three forms. -/
theorem witness_AccessOutsideMemory :
    (∃ s : State, 0xFFF < s.base + 2 ∧ s.base = 0xFFE) ∧ (∃ s : State, 0xFFF < s.base + (15 : Nibble).toNat ∧ s.base = 0xFF1) ∧
    ∃ s : State, 0 < (1 : Nibble).toNat ∧ 0xFFF < s.base + (1 : Nibble).toNat - 1 ∧ s.base = 0x1000 :=
  ⟨⟨{ State.reset with i := 0xFFE }, by decide, rfl⟩, ⟨{ State.reset with i := 0xFF1 }, by decide, rfl⟩,
    { State.reset with i := 0x1000 }, by decide, by decide, rfl⟩

theorem witness_StoreThenLoadRestores : ∃ s : State, s.mem.wf ∧ s.base + (15 : Nibble).toNat ≤ 0xFFF :=
  witness_register_blocks

/-- P6: the store of 63 2A over the next word. -/
theorem witness_StoredCodeIsFetched :
    ∃ s : State, s.agenda = [] ∧ s.halt = false ∧ s.mem.wf ∧ s.current = some (.storeRegs 1) ∧ 1 ≤ (1 : Nibble).toNat ∧
      s.base = s.pc.toNat + 2 ∧ s.base + (1 : Nibble).toNat ≤ 0xFFF ∧
      decode [s.reg 0, s.reg 1] = .instr (.ldImm 3 0x2A) [] :=
  ⟨({ regs [(0, 0x63), (1, 0x2A)] with i := 0x202 } : State).withFetchWord 16 0xF155, rfl, rfl, by decide, by decide,
    by decide, by decide, by decide, by decide⟩

theorem witness_ClearResult : ∃ s : State, s.sinkOpen = true := ⟨State.reset, rfl⟩

/-- No row far above memory, and fifteen rows that end at 0xFFF. -/
theorem witness_DrawResult :
    (∃ s : State, s.sinkOpen = true ∧ ((0 : Nibble).toNat = 0 ∨ s.base + (0 : Nibble).toNat - 1 ≤ 0xFFF) ∧ s.base = 0xFFFF) ∧
    ∃ s : State, s.sinkOpen = true ∧ s.base + (15 : Nibble).toNat - 1 = 0xFFF :=
  ⟨⟨{ State.reset with i := 0xFFFF }, rfl, .inl rfl, rfl⟩, { State.reset with i := 0xFF1 }, rfl, rfl⟩

/-- G12: the draw that erases a pixel, and G4: the draw that erases none. -/
theorem witness_DrawCollision :
    (∃ s t : State, exec (.drw 0 1 1) s = .next t ∧ t.halt = false ∧ s.disp.pixel 0 0 = true ∧ t.disp.pixel 0 0 = false) ∧
    ∃ s t : State, exec (.drw 0 1 1) s = .next t ∧ t.halt = false ∧
      ∀ r c, s.disp.pixel r c = true → t.disp.pixel r c = true :=
  ⟨⟨{ drawing 0xC0 0 0 with disp := Display.blank.setPixel 0 0 true }, _, rfl, rfl, by decide, by decide⟩,
    drawing 0x80 0 0, _, rfl, rfl, fun r c h => by simp [drawing, regs, Display.pixel, Display.blank, State.reset, State.setReg] at h⟩

theorem witness_DrawTwiceRestores :
    ∃ s t : State, exec (.drw 0 1 1) s = .next t ∧ t.halt = false ∧ t.reg 0 = s.reg 0 ∧ t.reg 1 = s.reg 1 :=
  ⟨drawing 0xFF 60 0, _, rfl, rfl, by decide, by decide⟩

theorem witness_SendFailureIsFatal :
    ∃ s : State, s.sinkOpen = false ∧ ((0 : Nibble).toNat = 0 ∨ s.base + (0 : Nibble).toNat - 1 ≤ 0xFFF) ∧
      s.base + (15 : Nibble).toNat - 1 ≤ 0xFFF :=
  ⟨{ State.reset with sinkOpen := false, i := 0xFF1 }, rfl, .inl rfl, by decide⟩

/-- The highest key number. -/
theorem witness_KeySkipResults : ((regs [(2, 15)]).reg 2).toNat < 16 := by decide

/-- The lowest number that is no key. -/
theorem witness_UnknownKeySkipResults :
    16 ≤ ((regs [(2, 16)]).reg 2).toNat ∧ (Instr.skp 2 = .skp 2 ∨ Instr.skp 2 = .sknp 2) ∧
      (Instr.sknp 2 = .skp 2 ∨ Instr.sknp 2 = .sknp 2) := by decide

theorem witness_KeyWaitResult : (∃ s : State, s.keyReport = some 15) ∧ ∃ s : State, s.keyReport = none :=
  ⟨⟨{ State.reset with keyReport := some 15 }, rfl⟩, State.reset, rfl⟩

theorem witness_ReportedKeyCompletesHold :
    ∃ s : State, s.agenda = [.reportKey 0xB] ∧ s.halt = false ∧ s.keyReport = none ∧ s.current = some (.ldVxK 3) :=
  ⟨{ about 0xF30A with agenda := [.reportKey 0xB] }, rfl, rfl, rfl, by decide⟩

theorem witness_HoldingEngineWaits : ∃ s : State, s.EngineMoves [] ∧ s.holding = true :=
  ⟨about 0xF30A, .inr ⟨rfl, rfl⟩, by decide⟩

/-- K15 and K18: timers at 0, and a halted engine. -/
theorem witness_TickResult :
    (∃ s : State, s.agenda = [.tick] ∧ s.dt = 0) ∧ ∃ s : State, s.agenda = [.tick] ∧ s.halt = true ∧ s.dt = 2 :=
  ⟨⟨{ State.reset with agenda := [.tick] }, rfl, rfl⟩,
    { State.reset with agenda := [.tick], halt := true, cause := .memoryBounds, dt := 2 }, rfl, rfl, rfl⟩

theorem witness_WarmResetResult : ∃ s : State, s.agenda = [.warmReset] ∧ s.sp.val = 3 :=
  ⟨{ State.reset with agenda := [.warmReset], sp := 3 }, rfl, rfl⟩

/-- The highest `FONT_BASE`. -/
theorem witness_PowerOnResult :
    ∃ (s : State) (p : Params), s.agenda = [.powerOn p] ∧ p.fontBase.toNat + 79 ≤ 0x1FF :=
  ⟨{ State.reset with agenda := [.powerOn { defaultParams with fontBase := 0x1B0 }] }, _, rfl, by decide⟩

/-- The longest program. -/
theorem witness_LoadResult :
    ∃ (s : State) (program : List Byte), s.agenda = [.load program] ∧ s.executing = false ∧ s.mem.wf ∧
      program.length ≤ 3584 ∧ program.length = 3584 :=
  ⟨{ State.reset with agenda := [.load (List.replicate 3584 0x12)] }, _, rfl, rfl, by decide,
    Nat.le_of_eq List.length_replicate, List.length_replicate⟩

/-- The shortest program that is too long, for a running and for a halted engine. -/
theorem witness_OversizedLoadIsFatal :
    ∃ (s u : State) (program : List Byte), s.agenda = [.load program] ∧ s.executing = false ∧ s.halt = false ∧
      u.agenda = [.load program] ∧ u.executing = false ∧ u.halt = true ∧ 3584 < program.length :=
  ⟨{ State.reset with agenda := [.load (List.replicate 3585 0x12)] },
    { State.reset with agenda := [.load (List.replicate 3585 0x12)], halt := true, cause := .stackUnderflow }, _,
    rfl, rfl, rfl, rfl, rfl, rfl, by rw [List.length_replicate]; decide⟩

theorem witness_InadmissibleTurnsAreRefused :
    (∃ s : State, s.agenda = [.load []] ∧ s.executing = true) ∧
    (∃ s : State, s.agenda = [.reportKey 15] ∧ s.holding = false) ∧
    ∃ (s : State) (p : Params), s.agenda = [.powerOn p] ∧ 0x1FF < p.fontBase.toNat + 79 :=
  ⟨⟨{ State.reset with agenda := [.load []], executing := true }, rfl, rfl⟩,
    ⟨{ State.reset with agenda := [.reportKey 15] }, rfl, by decide⟩,
    { State.reset with agenda := [.powerOn { defaultParams with fontBase := 0x1B1 }] }, _, rfl, by decide⟩

/-- A power-on with a closed sink, the turn that closes an open one, and the turn that presses the last key. -/
theorem witness_ClosedSinkStaysClosed :
    (∃ s t : State, step s = .next t ∧ s.sinkOpen = false ∧ t.sinkOpen = true) ∧
    (∃ s : State, s.agenda = [.closeSink] ∧ s.sinkOpen = true) ∧
    ∃ s : State, s.agenda = [.setKey 15 true] ∧ s.keys[15] = false :=
  ⟨⟨{ State.reset with agenda := [.powerOn defaultParams], sinkOpen := false }, _, rfl, rfl, rfl⟩,
    ⟨{ State.reset with agenda := [.closeSink] }, rfl, rfl⟩, { State.reset with agenda := [.setKey 15 true] }, rfl, by decide⟩

/-- A state of the invariant that has a step. -/
theorem witness_StepKeepsInvariant : ∃ s t : State, s.Inv ∧ step s = .next t :=
  ⟨State.reset, _, ⟨by decide, by decide, ⟨by decide, by decide⟩, by decide, rfl⟩, rfl⟩

/-- A warm reset of a halted engine, which stays halted, and a power-on, which clears the latch. -/
theorem witness_HaltIsSticky :
    (∃ s t : State, step s = .next t ∧ s.halt = true ∧ ¬ s.PowersOn) ∧
    ∃ s t : State, step s = .next t ∧ s.halt = true ∧ s.PowersOn :=
  ⟨⟨{ State.reset with agenda := [.warmReset], halt := true, cause := .stackOverflow }, _, rfl, rfl,
      fun ⟨_, _, h⟩ => by cases h⟩,
    { State.reset with agenda := [.powerOn defaultParams], halt := true, cause := .stackOverflow }, _, rfl, rfl, _, _, rfl⟩

/-- Reset with nothing loaded: the first step halts. -/
theorem witness_FatalStepCommitsNothing : ∃ s t : State, step s = .next t ∧ s.halt = false ∧ t.halt = true :=
  ⟨State.reset, _, rfl, rfl, rfl⟩

theorem witness_OnlyDisplayInstructionsSend :
    (∃ s t : State, step s = .next t) ∧ ∃ s t : State, exec .cls s = .next t ∧ t.out ≠ s.out :=
  ⟨⟨State.reset, _, rfl⟩, State.reset, _, rfl, by decide⟩

/-- A CLS, a DRW and an instruction that sends nothing. -/
theorem witness_MessagesSent :
    (∃ s t : State, exec .cls s = .next t ∧ t.halt = false) ∧ (∃ s t : State, exec (.drw 0 1 15) s = .next t ∧ t.halt = false) ∧
    ∃ s t : State, exec (.ldI 0x2F0) s = .next t ∧ t.halt = false :=
  ⟨⟨State.reset, _, rfl, rfl⟩, ⟨State.reset, _, rfl, rfl⟩, State.reset, _, rfl, rfl⟩

/-- An instruction that changes `I`, one that changes `SP` and the stack, one that changes memory. -/
theorem witness_StateWrittenOnlyByNamedInstructions :
    (∃ s t : State, exec (.ldI 0x2F0) s = .next t ∧ t.i ≠ s.i) ∧
    (∃ s t : State, exec (.call 0x300) s = .next t ∧ t.sp ≠ s.sp ∧ t.stack ≠ s.stack) ∧
    (∃ s t : State, exec (.ldB 1) s = .next t ∧ t.mem.read 0 ≠ s.mem.read 0) ∧
    (∃ s t : State, exec (.ldDtVx 1) s = .next t ∧ t.dt ≠ s.dt) ∧
    (∃ s t : State, exec (.ldStVx 1) s = .next t ∧ t.st ≠ s.st) ∧
    ∃ s t : State, exec (.drw 0 1 1) s = .next t ∧ t.disp.pixel 0 0 ≠ s.disp.pixel 0 0 :=
  ⟨⟨State.reset, _, rfl, by decide⟩, ⟨State.reset, _, rfl, by decide, by decide⟩, ⟨State.reset, _, rfl, by decide⟩,
    ⟨regs [(1, 0x3C)], _, rfl, by decide⟩, ⟨regs [(1, 0x3C)], _, rfl, by decide⟩, drawing 0x80 0 0, _, rfl, by decide⟩

/-- The destination, and `VF` beside it. -/
theorem witness_RegistersWrittenOnlyByDestination :
    ∃ s t : State, exec (.addReg 0 1) s = .next t ∧ t.reg 0 ≠ s.reg 0 ∧ t.reg 0xF ≠ s.reg 0xF :=
  ⟨regs [(0, 0xFF), (1, 0x01)], _, rfl, by decide, by decide⟩

theorem witness_OutputHistoryNeverRead : ∃ s t : State, step s = .next t ∧ ¬ s.PowersOn ∧ t.out.length = s.out.length + 1 :=
  ⟨about 0x00E0, _, rfl, (fun ⟨_, _, h⟩ => by cases h), by decide⟩

/-- Two states that differ in a dead entry, at a `RET`. -/
theorem witness_DeadStackEntriesNeverRead :
    ∃ s s' t : State, SameLive s s' ∧ s'.stack ≠ s.stack ∧ step s = .next t ∧ t.sp ≠ s.sp :=
  ⟨{ about 0x00EE with sp := 1 }, { about 0x00EE with sp := 1, stack := State.reset.stack.set 1 0x0BBB }, _,
    ⟨rfl, by decide⟩, by decide, rfl, by decide⟩

end Sys2Proof.Tests
end

section
/-! PROOFS. What power-on puts at each address (spec/70_reset_and_hazards.md R290), and the state after power-on with the
default parameters (spec/10_state.md R34). -/

namespace Sys2Proof.Machine

/-- The byte of `FONT_ROM` with number `j` goes to `FONT_BASE + j` (R192, R290). -/
@[simp] theorem powerOnByte_fontBase_add (p : Params) (j : Fin 80) :
    powerOnByte p (p.fontBase.toNat + j.val) = p.fontRom[j] := by
  have hfont : p.fontBase.toNat ≤ p.fontBase.toNat + j.val ∧ p.fontBase.toNat + j.val < p.fontBase.toNat + 80 := by omega
  rw [powerOnByte, dif_pos hfont]
  simp only [Nat.add_sub_cancel_left, Fin.getElem_fin]

/-- Below and above the font there is 0 (R290, decision D14). -/
theorem powerOnByte_outside_font (p : Params) (a : Nat) (ha : a < p.fontBase.toNat ∨ p.fontBase.toNat + 80 ≤ a) :
    powerOnByte p a = 0 :=
  dif_neg (by omega)

/-- The reset state lists no cell, so each address reads as after a power-on with the default parameters (log 8). -/
theorem State.read_reset_mem (a : Nat) : State.reset.mem.read a = powerOnByte defaultParams a := rfl

theorem State.read_reset_mem_font (j : Fin 80) : State.reset.mem.read j.val = defaultFontRom[j] :=
  have hbase : defaultParams.fontBase.toNat + j.val = j.val := Nat.zero_add _
  calc State.reset.mem.read j.val
    _ = powerOnByte defaultParams j.val := State.read_reset_mem _
    _ = powerOnByte defaultParams (defaultParams.fontBase.toNat + j.val) := congrArg _ hbase.symm
    _ = defaultFontRom[j] := powerOnByte_fontBase_add defaultParams j

theorem State.read_reset_mem_above_font (a : Nat) (ha : 80 ≤ a) : State.reset.mem.read a = 0 :=
  powerOnByte_outside_font defaultParams a (.inr (by simpa [defaultParams] using ha))

@[simp] theorem State.reg_reset (x : Nibble) : State.reset.reg x = 0 :=
  Vector.getElem_replicate x.isLt

@[simp] theorem State.getElem_reset_stack (k : Fin 16) : State.reset.stack[k] = 0 :=
  Vector.getElem_replicate k.isLt

/-- Settles O50: the register file, the stack, memory and the display by their own laws, the single fields as `State.reset`
lists them, and the sprites of R192 byte by byte by evaluating the eighty reads. -/
theorem resetState : Obligations.ResetState := by
  unfold Obligations.ResetState
  refine ⟨State.reg_reset, rfl, rfl, rfl, State.getElem_reset_stack, rfl, rfl, State.read_reset_mem_font,
    State.read_reset_mem_above_font, Display.pixel_blank, rfl, rfl, rfl, rfl, rfl, rfl, rfl, ?sprites⟩
  case sprites => decide

end Sys2Proof.Machine
end

section
/-! PROOFS. The normal form of an executed instruction: the fatal condition that stops it, if any, and its effect when none
does (spec/60_exceptions.md R252). Both are read off `exec` once, in `exec_eq`. -/

namespace Sys2Proof.Machine

/-- The fatal condition `i` takes in `s`, if any (spec/60_exceptions.md R251, R259). -/
def fatalCondition (i : Instr) (s : State) : Option Cause :=
  match i with
  | .cls => if s.sinkOpen then none else some .outputSendFailure
  | .ret => if s.sp.val = 0 then some .stackUnderflow else none
  | .call _ => if s.sp.val < 16 then none else some .stackOverflow
  | .drw _ _ n =>
    if n ≠ 0 ∧ topAddress < s.base + n.toNat - 1 then some .memoryBounds
    else if s.sinkOpen then none else some .outputSendFailure
  | .ldB _ => if topAddress < s.base + 2 then some .memoryBounds else none
  | .storeRegs x | .loadRegs x => if topAddress < s.base + x.toNat then some .memoryBounds else none
  | _ => none

/-- The state `i` leaves when it takes no fatal condition. -/
def effect (i : Instr) (s : State) : State :=
  match i with
  | .cls => ({ s with disp := Display.blank }.emit .clear).advance
  | .ret => s.drop.jump s.top
  | .jp nnn => s.jump (addrWord nnn)
  | .call nnn => if h : s.sp.val < 16 then (s.push (s.pc + 2) h).jump (addrWord nnn) else s
  | .seImm x kk => s.skipIf (s.reg x == kk)
  | .sneImm x kk => s.skipIf (s.reg x != kk)
  | .seReg x y => s.skipIf (s.reg x == s.reg y)
  | .sneReg x y => s.skipIf (s.reg x != s.reg y)
  | .ldImm x kk => (s.setReg x kk).advance
  | .addImm x kk => (s.setReg x (s.reg x + kk)).advance
  | .ldReg x y => (s.setReg x (s.reg y)).advance
  | .orReg x y => (s.setReg x (s.reg x ||| s.reg y)).advance
  | .andReg x y => (s.setReg x (s.reg x &&& s.reg y)).advance
  | .xorReg x y => (s.setReg x (s.reg x ^^^ s.reg y)).advance
  | .addReg x y => (s.setWithFlag x (s.reg x + s.reg y) (flagByte (carry (s.reg x) (s.reg y)))).advance
  | .subReg x y => (s.setWithFlag x (s.reg x - s.reg y) (flagByte (greater (s.reg x) (s.reg y)))).advance
  | .shr x y => (s.setWithFlag x (s.shiftSource x y >>> 1) (flagByte (lowBit (s.shiftSource x y)))).advance
  | .subn x y => (s.setWithFlag x (s.reg y - s.reg x) (flagByte (greater (s.reg y) (s.reg x)))).advance
  | .shl x y => (s.setWithFlag x (s.shiftSource x y <<< 1) (flagByte (highBit (s.shiftSource x y)))).advance
  | .ldI nnn => { s with i := addrWord nnn }.advance
  | .jpV0 nnn => s.jump (addrWord nnn + byteWord (s.reg 0))
  | .rnd x kk => ({ s with draws := s.draws + 1 }.setReg x (Config.randomByte s.draws &&& kk)).advance
  | .drw x y n => s.paint (s.sprite x y n)
  | .skp x => (s.afterQuery (s.reg x)).skipIf (s.keyPressed (s.reg x))
  | .sknp x => (s.afterQuery (s.reg x)).skipIf (!s.keyPressed (s.reg x))
  | .ldVxDt x => (s.setReg x s.dt).advance
  | .ldVxK x =>
    match s.keyReport with
    | some k => ({ s with keyReport := none }.setReg x (k.setWidth 8)).advance
    | none => s
  | .ldDtVx x => { s with dt := s.reg x }.advance
  | .ldStVx x => { s with st := s.reg x }.advance
  | .addI x => { s with i := s.i + byteWord (s.reg x) }.advance
  | .ldF x => { s with i := fontAddress s.params (s.reg x) }.advance
  | .ldB x => { s with mem := s.mem.writeBytes s.base (decimalDigits (s.reg x)) }.advance
  | .storeRegs x => { s with mem := s.mem.writeBytes s.base (s.regBlock x) }.advance
  | .loadRegs x => { s with v := loadBlock s.mem s.base s.v (x.toNat + 1), i := s.i + x.setWidth 16 + 1 }.advance

theorem effect_call {s : State} (nnn : Addr) (h : s.sp.val < 16) :
    effect (.call nnn) s = (s.push (s.pc + 2) h).jump (addrWord nnn) := dif_pos h

theorem effect_call_of_full {s : State} (nnn : Addr) (h : ¬ s.sp.val < 16) : effect (.call nnn) s = s := dif_neg h

theorem effect_ldVxK {s : State} {k : Nibble} (x : Nibble) (h : s.keyReport = some k) :
    effect (.ldVxK x) s = ({ s with keyReport := none }.setReg x (k.setWidth 8)).advance := by
  simp only [effect, h]

theorem effect_ldVxK_of_hold {s : State} (x : Nibble) (h : s.keyReport = none) : effect (.ldVxK x) s = s := by
  simp only [effect, h]

/-- An answer as a fatal condition or, without one, a next state. -/
def answer (c : Option Cause) (s t : State) : Result := c.elim (.next t) (fatal · s)

theorem sending_eq_answer (s t : State) :
    sending s (.next t) = answer (if s.sinkOpen then none else some .outputSendFailure) s t := by
  unfold sending
  split <;> rfl

theorem accessing_eq_answer (highest : Nat) (s t : State) :
    accessing highest s (.next t) = answer (if topAddress < highest then some .memoryBounds else none) s t := by
  unfold accessing
  split <;> rfl

theorem execDrw_eq_answer (x y n : Nibble) (s : State) :
    execDrw x y n s = answer (fatalCondition (.drw x y n) s) s (effect (.drw x y n) s) := by
  unfold execDrw
  by_cases hn : n = 0
  · rw [if_pos hn, sending_eq_answer]
    simp [fatalCondition, effect, hn]
  · rw [if_neg hn]
    by_cases hb : topAddress < s.base + n.toNat - 1
    · rw [accessing_of_lt s _ hb]
      simp only [fatalCondition, if_pos (And.intro hn hb)]
      rfl
    · rw [accessing_of_le s _ (by omega), sending_eq_answer]
      simp only [fatalCondition, if_neg (fun h : n ≠ 0 ∧ _ => hb h.2)]
      rfl

/-- Execution is the fatal condition, or else the effect. -/
theorem exec_eq (i : Instr) (s : State) : exec i s = answer (fatalCondition i s) s (effect i s) := by
  cases i with
  | cls => exact sending_eq_answer s _
  | ret =>
    simp only [exec, execRet, fatalCondition]
    split <;> rfl
  | call nnn =>
    simp only [exec, execCall, fatalCondition, effect]
    split <;> rfl
  | drw x y n => exact execDrw_eq_answer x y n s
  | ldB x => exact accessing_eq_answer _ s _
  | storeRegs x => exact accessing_eq_answer _ s _
  | loadRegs x => exact accessing_eq_answer _ s _
  | ldVxK x =>
    simp only [exec, execLdVxK, effect]
    cases s.keyReport <;> rfl
  | _ => rfl

theorem exec_of_fatalCondition_none {i : Instr} {s : State} (h : fatalCondition i s = none) :
    exec i s = .next (effect i s) := by rw [exec_eq, h]; rfl

theorem exec_of_fatalCondition_some {i : Instr} {s : State} {c : Cause} (h : fatalCondition i s = some c) :
    exec i s = fatal c s := by rw [exec_eq, h]; rfl

/-- Everything an executed instruction can do: take its fatal condition, or complete. -/
theorem exec_eq_next {i : Instr} {s t : State} (h : exec i s = .next t) :
    (∃ c, fatalCondition i s = some c ∧ t = s.raise c) ∨ (fatalCondition i s = none ∧ t = effect i s) := by
  cases hc : fatalCondition i s with
  | none =>
    rw [exec_of_fatalCondition_none hc] at h
    cases h
    exact .inr ⟨rfl, rfl⟩
  | some c =>
    rw [exec_of_fatalCondition_some hc] at h
    exact .inl ⟨c, rfl, fatal_eq_next h⟩

/-- A fatal condition has a cause (spec/60_exceptions.md R251). -/
theorem cause_ne_none_of_fatalCondition {i : Instr} {s : State} {c : Cause} (h : fatalCondition i s = some c) :
    c ≠ .none := by
  rintro rfl
  unfold fatalCondition at h
  split at h <;> grind

end Sys2Proof.Machine
end

section
/-! PROOFS. Everything a fetch with dispatch and an engine turn can answer, in the terms of the normal form
(spec/40_cycle.md R121). -/

namespace Sys2Proof.Machine

/-- The fatal condition of a fetch with dispatch that reaches no instruction (spec/60_exceptions.md R259). -/
def State.fetchCondition (s : State) : Cause :=
  match s.fetch with
  | none => .memoryBounds
  | some _ => .unrecognizedOpcode

theorem State.fetchCondition_ne_none (s : State) : s.fetchCondition ≠ .none := by
  unfold State.fetchCondition
  split <;> simp

/-- With an instruction at `PC` the engine executes it. -/
theorem fetchExecute_of_current_some {s : State} {i : Instr} (h : s.current = some i) : fetchExecute s = exec i s := by
  obtain ⟨w, hfetch, hdecode⟩ := Option.bind_eq_some_iff.mp h
  simp only [fetchExecute, hfetch, hdecode]

/-- With no instruction at `PC` the engine takes a fatal condition. -/
theorem fetchExecute_of_current_none {s : State} (h : s.current = none) :
    fetchExecute s = fatal s.fetchCondition s := by
  unfold fetchExecute State.fetchCondition
  cases hfetch : s.fetch with
  | none => rfl
  | some w =>
    have hdecode : decodeWord w = none := by simpa [State.current, hfetch] using h
    simp only [hdecode]

/-- Everything a fetch with dispatch can do: raise a cause, or complete the instruction at `PC`. -/
theorem fetchExecute_eq_next {s t : State} (h : fetchExecute s = .next t) :
    (∃ c, c ≠ .none ∧ t = s.raise c) ∨ ∃ i, s.current = some i ∧ fatalCondition i s = none ∧ t = effect i s := by
  cases hi : s.current with
  | none =>
    rw [fetchExecute_of_current_none hi] at h
    exact .inl ⟨_, s.fetchCondition_ne_none, fatal_eq_next h⟩
  | some i =>
    rw [fetchExecute_of_current_some hi] at h
    rcases exec_eq_next h with ⟨c, hc, rfl⟩ | ⟨hnone, rfl⟩
    · exact .inl ⟨c, cause_ne_none_of_fatalCondition hc, rfl⟩
    · exact .inr ⟨i, rfl, hnone, rfl⟩

/-- An engine turn with a next state is a fetch with dispatch of an engine that is not halted. -/
theorem engineTurn_eq_next {s t : State} (h : engineTurn s = .next t) :
    s.halt = false ∧ fetchExecute { s with executing := true } = .next t := by
  rcases engineTurn_cases s with ⟨-, heq⟩ | ⟨hrun, heq⟩
  · cases heq.symm.trans h
  · exact ⟨hrun, heq.symm.trans h⟩

theorem engineTurn_of_running {s : State} (h : s.halt = false) :
    engineTurn s = fetchExecute { s with executing := true } := if_neg (by simp [h])

/-- An instruction at `PC` was fetched within memory (spec/20_memory.md R64). -/
theorem State.pc_le_of_current {s : State} {i : Instr} (h : s.current = some i) : s.pc.toNat ≤ 0xFFE := by
  obtain ⟨w, hfetch, -⟩ := Option.bind_eq_some_iff.mp h
  have hbound := ((s.fetch_eq_some_iff w).mp hfetch).1
  simp only [topAddress_eq] at hbound
  omega

/-- A load answers only an engine that does not execute (spec/70_reset_and_hazards.md R294). -/
theorem loadTurn_eq_next {program : List Byte} {s t : State} (h : loadTurn program s = .next t) :
    s.executing = false ∧ t = s.load program := by
  unfold loadTurn at h
  split at h
  · cases h
  · next hidle => cases h; exact ⟨by simpa using hidle, rfl⟩

/-- A load writes memory or takes a fatal condition, and leaves a halted engine with its cause. -/
theorem State.load_cases (program : List Byte) (s : State) :
    (program.length ≤ 3584 ∧ s.load program = { s with mem := s.mem.writeBytes 0x200 program }) ∨
    (s.halt = true ∧ s.load program = s) ∨ (s.halt = false ∧ s.load program = s.raise .programTooLarge) := by
  unfold State.load State.rejectProgram
  by_cases hfits : programFits program = true
  · exact .inl ⟨by simpa [programFits] using hfits, if_pos hfits⟩
  · rw [if_neg hfits]
    cases hrun : s.halt <;> simp

/-- A load writes neither the stack nor the Output channel. -/
theorem State.load_keeps (program : List Byte) (s : State) :
    (s.load program).stack = s.stack ∧ (s.load program).out = s.out ∧ (s.load program).sp = s.sp := by
  rcases s.load_cases program with ⟨-, h⟩ | ⟨-, h⟩ | ⟨-, h⟩ <;> simp [h]

/-- A power-on answers only for a font below 0x200 (spec/43_index_memory.md R192). -/
theorem powerOnTurn_eq_next {p : Params} {s t : State} (h : powerOnTurn p s = .next t) :
    p.wellFormed = true ∧ t = s.powerOn p := by
  unfold powerOnTurn at h
  split at h
  · next hfont => cases h; exact ⟨hfont, rfl⟩
  · cases h

/-- A key report answers only while the engine holds, and is then an engine turn with the report
(spec/70_reset_and_hazards.md R296). -/
theorem reportKeyTurn_eq_next {k : Nibble} {s t : State} (h : reportKeyTurn k s = .next t) :
    s.holding = true ∧ engineTurn { s with keyReport := some k } = .next t := by
  unfold reportKeyTurn at h
  split at h
  · next hhold => exact ⟨hhold, h⟩
  · cases h

end Sys2Proof.Machine
end

section
/-! PROOFS. Frames: what each update of the state, and from it each instruction, leaves unchanged (the column "written by" of
spec/10_state.md). -/

namespace Sys2Proof.Machine

section Frames

variable (s : State)

theorem Frame.refl (c : List Part) : Frame c s s := by
  intro p _
  cases p <;> simp [Part.Same]

theorem Part.Same.trans {p : Part} {s t u : State} (hst : p.Same s t) (htu : p.Same t u) : p.Same s u := by
  cases p <;> simp_all [Part.Same]

/-- What two updates in a row leave unchanged. -/
theorem Frame.trans {c d : List Part} {s t u : State} (hst : Frame c s t) (htu : Frame d t u) : Frame (c ++ d) s u :=
  fun p hp => (hst p fun h => hp (List.mem_append_left d h)).trans (htu p fun h => hp (List.mem_append_right c h))

theorem frame_setReg (x : Nibble) (b : Byte) : Frame [.v] s (s.setReg x b) := by
  intro p hp
  cases p <;> simp_all [Part.Same]

theorem frame_setWithFlag (x : Nibble) (r f : Byte) : Frame [.v] s (s.setWithFlag x r f) :=
  fun p hp => (frame_setReg s x r p hp).trans (frame_setReg _ vf f p hp)

theorem frame_loadBlock (a : Nat) (n : Nat) (w : Word) :
    Frame [.v, .i] s { s with v := loadBlock s.mem a s.v n, i := w } := by
  intro p hp
  cases p <;> simp_all [Part.Same]

theorem frame_i (w : Word) : Frame [.i] s { s with i := w } := by
  intro p hp
  cases p <;> simp_all [Part.Same, State.reg]

theorem frame_jump (a : Word) : Frame [.pc] s (s.jump a) := by
  intro p hp
  cases p <;> simp_all [Part.Same]

theorem frame_advance : Frame [.pc] s s.advance := frame_jump s (s.pc + 2)

theorem frame_skipIf (c : Bool) : Frame [.pc] s (s.skipIf c) := frame_jump s (if c then s.pc + 4 else s.pc + 2)

theorem frame_push (a : Word) (h : s.sp.val < 16) : Frame [.stack, .sp] s (s.push a h) := by
  intro p hp
  cases p <;> simp_all [Part.Same]

theorem frame_drop : Frame [.sp] s s.drop := by
  intro p hp
  cases p <;> simp_all [Part.Same]

theorem frame_mem (m : Memory) : Frame [.mem] s { s with mem := m } := by
  intro p hp
  cases p <;> simp_all [Part.Same, State.reg]

theorem frame_dt (b : Byte) : Frame [.dt] s { s with dt := b } := by
  intro p hp
  cases p <;> simp_all [Part.Same, State.reg]

theorem frame_st (b : Byte) : Frame [.st] s { s with st := b } := by
  intro p hp
  cases p <;> simp_all [Part.Same, State.reg]

theorem frame_disp (d : Display) : Frame [.disp] s { s with disp := d } := by
  intro p hp
  cases p <;> simp_all [Part.Same, State.reg]

theorem frame_emit (m : Message) : Frame [.out] s (s.emit m) := by
  intro p hp
  cases p <;> simp_all [Part.Same]

theorem frame_draws (n : Nat) : Frame [.draws] s { s with draws := n } := by
  intro p hp
  cases p <;> simp_all [Part.Same, State.reg]

theorem frame_keyReport (k : Option Nibble) : Frame [.keyReport] s { s with keyReport := k } := by
  intro p hp
  cases p <;> simp_all [Part.Same, State.reg]

theorem frame_afterQuery (k : Byte) : Frame [.draws] s (s.afterQuery k) := by
  unfold State.afterQuery
  split
  · exact Frame.refl s _
  · exact frame_draws s _

theorem frame_paint (p : Display × Bool) : Frame [.disp, .v, .out, .pc] s (s.paint p) :=
  (((frame_disp s p.1).trans (frame_setReg _ _ _)).trans (frame_emit _ _)).trans (frame_advance _)

/-- A fatal condition writes `HALT` and `CAUSE` (spec/60_exceptions.md R252). -/
theorem frame_raise (c : Cause) : Frame [.halt, .cause] s (s.raise c) := by
  intro p hp
  cases p <;> simp_all [Part.Same]

end Frames

/-- The pieces of state an instruction that completes may write (the column "written by" of spec/10_state.md; the counter of
free values and the key report are the model's, log 4 to log 6). -/
def writeSet (i : Instr) : List Part :=
  match i with
  | .cls => [.disp, .out, .pc]
  | .ret => [.sp, .pc]
  | .jp _ | .jpV0 _ | .seImm _ _ | .sneImm _ _ | .seReg _ _ | .sneReg _ _ => [.pc]
  | .call _ => [.stack, .sp, .pc]
  | .ldImm _ _ | .addImm _ _ | .ldReg _ _ | .orReg _ _ | .andReg _ _ | .xorReg _ _ | .addReg _ _ | .subReg _ _ | .shr _ _
  | .subn _ _ | .shl _ _ | .ldVxDt _ => [.v, .pc]
  | .ldI _ | .addI _ | .ldF _ => [.i, .pc]
  | .rnd _ _ => [.draws, .v, .pc]
  | .drw _ _ _ => [.disp, .v, .out, .pc]
  | .skp _ | .sknp _ => [.draws, .pc]
  | .ldVxK _ => [.keyReport, .v, .pc]
  | .ldDtVx _ => [.dt, .pc]
  | .ldStVx _ => [.st, .pc]
  | .ldB _ | .storeRegs _ => [.mem, .pc]
  | .loadRegs _ => [.v, .i, .pc]

/-- An instruction that completes writes its write set at most. -/
theorem effect_frame (i : Instr) (s : State) : Frame (writeSet i) s (effect i s) := by
  cases i with
  | cls => exact ((frame_disp s _).trans (frame_emit _ _)).trans (frame_advance _)
  | ret => exact (frame_drop s).trans (frame_jump _ _)
  | jp | jpV0 => exact frame_jump s _
  | call nnn =>
    by_cases h : s.sp.val < 16
    · rw [effect_call nnn h]
      exact (frame_push s _ h).trans (frame_jump _ _)
    · rw [effect_call_of_full nnn h]
      exact Frame.refl s _
  | seImm | sneImm | seReg | sneReg => exact frame_skipIf s _
  | ldImm | addImm | ldReg | orReg | andReg | xorReg | ldVxDt => exact (frame_setReg s _ _).trans (frame_advance _)
  | addReg | subReg | shr | subn | shl => exact (frame_setWithFlag s _ _ _).trans (frame_advance _)
  | ldI | addI | ldF => exact (frame_i s _).trans (frame_advance _)
  | rnd => exact ((frame_draws s _).trans (frame_setReg _ _ _)).trans (frame_advance _)
  | drw => exact frame_paint s _
  | skp | sknp => exact (frame_afterQuery s _).trans (frame_skipIf _ _)
  | ldVxK x =>
    cases h : s.keyReport with
    | some k =>
      rw [effect_ldVxK x h]
      exact ((frame_keyReport s _).trans (frame_setReg _ _ _)).trans (frame_advance _)
    | none =>
      rw [effect_ldVxK_of_hold x h]
      exact Frame.refl s _
  | ldDtVx => exact (frame_dt s _).trans (frame_advance _)
  | ldStVx => exact (frame_st s _).trans (frame_advance _)
  | ldB | storeRegs => exact (frame_mem s _).trans (frame_advance _)
  | loadRegs => exact (frame_loadBlock s _ _ _).trans (frame_advance _)

/-- An executed instruction writes its write set, or `HALT` and `CAUSE`. -/
theorem exec_frame {i : Instr} {s t : State} (h : exec i s = .next t) : Frame (.halt :: .cause :: writeSet i) s t := by
  rcases exec_eq_next h with ⟨c, -, rfl⟩ | ⟨-, rfl⟩
  · exact fun p hp => frame_raise s c p fun hmem => hp (List.mem_append_left (writeSet i) hmem)
  · exact fun p hp => effect_frame i s p fun hmem => hp (List.mem_append_right [Part.halt, .cause] hmem)

section WriteSets

/-! The write sets read the other way round: which instructions write a piece. -/

variable {i : Instr}

theorem of_i_mem_writeSet (h : .i ∈ writeSet i) :
    (∃ nnn, i = .ldI nnn) ∨ ∃ x, i = .addI x ∨ i = .ldF x ∨ i = .loadRegs x := by
  cases i <;> simp_all [writeSet]

theorem of_sp_mem_writeSet (h : .sp ∈ writeSet i) : i = .ret ∨ ∃ nnn, i = .call nnn := by
  cases i <;> simp_all [writeSet]

theorem of_stack_mem_writeSet (h : .stack ∈ writeSet i) : ∃ nnn, i = .call nnn := by
  cases i <;> simp_all [writeSet]

theorem of_mem_mem_writeSet (h : .mem ∈ writeSet i) : ∃ x, i = .ldB x ∨ i = .storeRegs x := by
  cases i <;> simp_all [writeSet]

theorem of_dt_mem_writeSet (h : .dt ∈ writeSet i) : ∃ x, i = .ldDtVx x := by
  cases i <;> simp_all [writeSet]

theorem of_st_mem_writeSet (h : .st ∈ writeSet i) : ∃ x, i = .ldStVx x := by
  cases i <;> simp_all [writeSet]

theorem of_disp_mem_writeSet (h : .disp ∈ writeSet i) : i = .cls ∨ ∃ x y n, i = .drw x y n := by
  cases i <;> simp_all [writeSet]

theorem of_out_mem_writeSet (h : .out ∈ writeSet i) : i = .cls ∨ ∃ x y n, i = .drw x y n := by
  cases i <;> simp_all [writeSet]

/-- The pieces that no write set lists are the latch, the parameters, the host's inputs, the turns and the mark. -/
theorem writeSet_subset (i : Instr) :
    writeSet i ⊆ [.v, .i, .pc, .sp, .stack, .mem, .dt, .st, .disp, .out, .keyReport, .draws] := by
  cases i <;> simp [writeSet]

end WriteSets

/-- A piece that an executed instruction changes is in its write set, or is the latch. -/
theorem mem_writeSet_of_not_same {i : Instr} {s t : State} {p : Part} (h : exec i s = .next t) (hp : ¬ p.Same s t)
    (hlatch : p ≠ .halt ∧ p ≠ .cause) : p ∈ writeSet i :=
  Decidable.byContradiction fun hmem =>
    hp (exec_frame h p (by simp only [List.mem_cons, hlatch.1, hlatch.2, hmem, or_self, not_false_eq_true]))

/-- Settles O56: a piece that changes is in the instruction's write set, and the write sets that list it are those of the
instructions named. -/
theorem stateWrittenOnlyByNamedInstructions : Obligations.StateWrittenOnlyByNamedInstructions := by
  unfold Obligations.StateWrittenOnlyByNamedInstructions
  intro i s t h
  refine ⟨fun hi => ?i, fun hsp => ?sp, fun hstack => ?stack, fun a ha => ?mem, fun hdt => ?dt, fun hst => ?st,
    fun hdisp => ?disp, fun p hp => ?frame⟩
  case i => exact of_i_mem_writeSet (mem_writeSet_of_not_same (p := .i) h hi (by simp))
  case sp => exact of_sp_mem_writeSet (mem_writeSet_of_not_same (p := .sp) h hsp (by simp))
  case stack => exact of_stack_mem_writeSet (mem_writeSet_of_not_same (p := .stack) h hstack (by simp))
  case mem => exact of_mem_mem_writeSet (mem_writeSet_of_not_same (p := .mem) h (fun hsame => ha (hsame a)) (by simp))
  case dt => exact of_dt_mem_writeSet (mem_writeSet_of_not_same (p := .dt) h hdt (by simp))
  case st => exact of_st_mem_writeSet (mem_writeSet_of_not_same (p := .st) h hst (by simp))
  case disp => exact of_disp_mem_writeSet (mem_writeSet_of_not_same (p := .disp) h hdisp (by simp))
  case frame =>
    refine exec_frame h p fun hmem => hp ?_
    rcases List.mem_cons.mp hmem with rfl | hmem
    · decide
    rcases List.mem_cons.mp hmem with rfl | hmem
    · decide
    have hwritten := writeSet_subset i hmem
    simp only [List.mem_cons] at hwritten ⊢
    grind

end Sys2Proof.Machine
end

section
/-! PROOFS. Which registers an instruction changes (spec/10_state.md R20, R21). -/

namespace Sys2Proof.Machine

/-- A register that is no destination keeps its value, and so does `VF` under an instruction that sets no flag. -/
theorem effect_reg_of_not_destination {i : Instr} {y : Nibble} (s : State) (hdest : destination i y = false)
    (hflag : ¬ (setsFlag i = true ∧ y = vf)) : (effect i s).reg y = s.reg y := by
  cases i with
  | ldImm | addImm | ldReg | orReg | andReg | xorReg | ldVxDt =>
    have hne := of_decide_eq_false hdest
    rw [effect, State.reg_advance, State.reg_setReg, if_neg hne]
  | rnd x kk =>
    have hne : y ≠ x := of_decide_eq_false hdest
    rw [effect, State.reg_advance, State.reg_setReg, if_neg hne]
    rfl
  | addReg | subReg | shr | subn | shl =>
    have hne := of_decide_eq_false hdest
    rw [effect, State.reg_advance, State.reg_setWithFlag, if_neg (fun h => hflag ⟨rfl, h⟩), if_neg hne]
  | drw => rw [effect, State.reg_paint, if_neg (fun h => hflag ⟨rfl, h⟩)]
  | ldVxK x =>
    have hne : y ≠ x := of_decide_eq_false hdest
    cases h : s.keyReport with
    | some k =>
      rw [effect_ldVxK x h, State.reg_advance, State.reg_setReg, if_neg hne]
      rfl
    | none => rw [effect_ldVxK_of_hold x h]
  | loadRegs x =>
    have hgt : ¬ y.toNat < x.toNat + 1 := fun h => of_decide_eq_false hdest (Nat.le_of_lt_succ h)
    exact (getElem_loadBlock s.mem s.base s.v _ y.toNat y.isLt).trans (if_neg hgt)
  | _ => exact effect_frame _ s .v (by simp [writeSet]) y

/-- Settles O57: the register keeps its value under a fatal condition, and under the effect unless it is a destination or
the flag. -/
theorem registersWrittenOnlyByDestination : Obligations.RegistersWrittenOnlyByDestination := by
  unfold Obligations.RegistersWrittenOnlyByDestination
  intro i s t y h hy
  rcases exec_eq_next h with ⟨c, -, rfl⟩ | ⟨-, rfl⟩
  · exact absurd (s.reg_raise c y) hy
  · refine Classical.byContradiction fun hnot => ?_
    rw [not_or, Bool.not_eq_true] at hnot
    exact hy (effect_reg_of_not_destination s hnot.1 hnot.2)

end Sys2Proof.Machine
end

section
/-! PROOFS. What a step adds to the Output channel (spec/10_state.md R31, spec/44_display.md R213). -/

namespace Sys2Proof.Machine

/-- `t` has the messages of `s` and at most one more, a `Clear` or the display of `t`. -/
def SendsAtMostOne (s t : State) : Prop :=
  t.out = s.out ∨ t.out = s.out ++ [.clear] ∨ t.out = s.out ++ [.draw t.disp]

theorem messages_cases (i : Instr) (t : State) :
    messages i t = [] ∨ messages i t = [.clear] ∨ messages i t = [.draw t.disp] := by
  cases i <;> simp [messages]

/-- An instruction that completes sends its messages. -/
theorem effect_out (i : Instr) (s : State) : (effect i s).out = s.out ++ messages i (effect i s) := by
  cases i with
  | cls | drw => rfl
  | _ =>
    rw [messages, List.append_nil]
    exact effect_frame _ s .out (by simp [writeSet])

theorem effect_sendsAtMostOne (i : Instr) (s : State) : SendsAtMostOne s (effect i s) := by
  unfold SendsAtMostOne
  rw [effect_out]
  rcases messages_cases i (effect i s) with h | h | h <;> simp [h]

theorem engineTurn_sendsAtMostOne {s t : State} (h : engineTurn s = .next t) : SendsAtMostOne s t := by
  rcases fetchExecute_eq_next (engineTurn_eq_next h).2 with ⟨c, -, rfl⟩ | ⟨i, -, -, rfl⟩
  · exact .inl rfl
  · exact effect_sendsAtMostOne i { s with executing := true }

/-- Of the turns only the engine's, by itself or by a key report, and a power-on write the Output channel. -/
theorem takeTurn_sendsAtMostOne {turn : Turn} {s t : State} (h : takeTurn turn s = .next t)
    (hp : ∀ p, turn ≠ .powerOn p) : SendsAtMostOne s t := by
  cases turn with
  | engine => exact engineTurn_sendsAtMostOne h
  | reportKey k => exact engineTurn_sendsAtMostOne (s := { s with keyReport := some k }) (reportKeyTurn_eq_next h).2
  | powerOn p => exact absurd rfl (hp p)
  | load program =>
    obtain ⟨-, rfl⟩ := loadTurn_eq_next h
    obtain ⟨-, hout, -⟩ := s.load_keeps program
    exact .inl hout
  | tick | warmReset | setKey | closeSink | consumeOutput | readPorts =>
    cases h
    exact .inl rfl

theorem step_sendsAtMostOne {s t : State} (h : step s = .next t) (hp : ¬ s.PowersOn) : SendsAtMostOne s t := by
  rcases step_cases s with ⟨-, heq⟩ | ⟨turn, rest, hagenda, heq⟩
  · exact engineTurn_sendsAtMostOne (heq.symm.trans h)
  · have hturn (p : Params) : turn ≠ .powerOn p := by
      rintro rfl
      exact hp ⟨p, rest, hagenda⟩
    exact takeTurn_sendsAtMostOne (s := { s with agenda := rest }) (heq.symm.trans h) hturn

/-- Settles O55: turn by turn for the step, and by the write sets for an instruction. -/
theorem onlyDisplayInstructionsSend : Obligations.OnlyDisplayInstructionsSend := by
  unfold Obligations.OnlyDisplayInstructionsSend
  refine ⟨fun s t h => ?step, fun i s t h hout => ?instruction⟩
  case step =>
    by_cases hp : s.PowersOn
    · exact .inr (.inr (.inr hp))
    · exact (step_sendsAtMostOne h hp).imp_right (.imp_right .inl)
  case instruction => exact of_out_mem_writeSet (mem_writeSet_of_not_same (p := .out) h hout (by simp))

end Sys2Proof.Machine
end

section
/-! PROOFS. The invariant: it holds after power-on, and every turn keeps it (spec/10_state.md R23, spec/60_exceptions.md
R251). -/

namespace Sys2Proof.Machine

/-- Settles O51: `reset` lists no cell, so memory is in canonical form, and the other fields are read off. -/
theorem invariantAtReset : Obligations.InvariantAtReset := by
  unfold Obligations.InvariantAtReset
  exact {
    memory := ⟨.nil, by simp [State.reset]⟩
    latch := by decide
    pc := ⟨by decide, fun k => by simp [State.getElem_reset_stack k]⟩
    font := by decide
    report := rfl }

section PowerOn

variable (p : Params) (s : State)

@[simp] theorem State.powerOn_mem : (s.powerOn p).mem = powerOnMemory p := by simp only [State.powerOn]
@[simp] theorem State.powerOn_pc : (s.powerOn p).pc = 0x200 := rfl
@[simp] theorem State.powerOn_stack : (s.powerOn p).stack = State.reset.stack := rfl
@[simp] theorem State.powerOn_halt : (s.powerOn p).halt = false := rfl
@[simp] theorem State.powerOn_cause : (s.powerOn p).cause = .none := rfl
@[simp] theorem State.powerOn_params : (s.powerOn p).params = p := rfl
@[simp] theorem State.powerOn_keyReport : (s.powerOn p).keyReport = none := rfl

end PowerOn

/-- The invariant after a power-on with any parameters that R192 admits. -/
theorem State.inv_powerOn {p : Params} (s : State) (hp : p.wellFormed = true) : (s.powerOn p).Inv where
  memory := by
    rw [State.powerOn_mem]
    exact powerOnMemory_wf p
  latch := by simp
  pc := ⟨by simp, fun k => by rw [State.powerOn_stack, State.getElem_reset_stack]; decide⟩
  font := by rw [State.powerOn_params, hp]
  report := s.powerOn_keyReport p

section PcValues

/-! The values of `PC` and the stack (the list of spec/10_state.md R23). -/

theorem toNat_addrWord_le (nnn : Addr) : (addrWord nnn).toNat ≤ 0xFFF := by
  have := nnn.isLt
  simp only [addrWord, BitVec.toNat_setWidth]
  omega

theorem toNat_addrWord_add_byteWord_le (nnn : Addr) (b : Byte) : (addrWord nnn + byteWord b).toNat ≤ 0x10FE := by
  have hnnn := toNat_addrWord_le nnn
  have hb := b.isLt
  simp only [byteWord, BitVec.toNat_add, BitVec.toNat_setWidth]
  omega

theorem toNat_add_two_le {pc : Word} (h : pc.toNat ≤ 0xFFE) : (pc + 2).toNat ≤ 0x1000 := by bv_omega

theorem toNat_skipIf_pc_le {s : State} (c : Bool) (h : s.pc.toNat ≤ 0xFFE) : (s.skipIf c).pc.toNat ≤ 0x10FE := by
  rw [State.skipIf_pc]
  split <;> bv_omega

variable {s : State} (h : s.PcReachable) (hpc : s.pc.toNat ≤ 0xFFE)
include h hpc

/-- Where an instruction that was fetched within memory can go (spec/40_cycle.md R122). -/
theorem effect_pc_le (i : Instr) : (effect i s).pc.toNat ≤ 0x10FE := by
  have hnext : (s.pc + 2).toNat ≤ 0x10FE := Nat.le_trans (toNat_add_two_le hpc) (by decide)
  cases i with
  | ret => exact Nat.le_trans (h.2 ⟨s.sp.val - 1, by omega⟩) (by decide)
  | jp nnn => exact Nat.le_trans (toNat_addrWord_le nnn) (by decide)
  | call nnn =>
    by_cases hroom : s.sp.val < 16
    · rw [effect_call nnn hroom]
      exact Nat.le_trans (toNat_addrWord_le nnn) (by decide)
    · rw [effect_call_of_full nnn hroom]
      exact h.1
  | jpV0 nnn => exact toNat_addrWord_add_byteWord_le nnn _
  | seImm | sneImm | seReg | sneReg => exact toNat_skipIf_pc_le _ hpc
  | skp | sknp => exact toNat_skipIf_pc_le _ (by rwa [State.afterQuery_pc])
  | ldVxK x =>
    cases hk : s.keyReport with
    | some k => rwa [effect_ldVxK x hk]
    | none => rw [effect_ldVxK_of_hold x hk]; exact h.1
  | _ => exact hnext

/-- CALL pushes the address after itself, which is at most 0x1000, and nothing else writes the stack. -/
theorem effect_stack_le (i : Instr) (k : Fin 16) : (effect i s).stack[k].toNat ≤ 0x1000 := by
  by_cases hcall : ∃ nnn, i = .call nnn
  · obtain ⟨nnn, rfl⟩ := hcall
    by_cases hroom : s.sp.val < 16
    · rw [effect_call nnn hroom]
      simp only [State.jump_stack, State.push_stack, Fin.getElem_fin, Vector.getElem_set]
      split
      · exact toNat_add_two_le hpc
      · exact h.2 k
    · rw [effect_call_of_full nnn hroom]
      exact h.2 k
  · have hsame : (effect i s).stack = s.stack := effect_frame i s .stack fun hmem => hcall (of_stack_mem_writeSet hmem)
    rw [hsame]
    exact h.2 k

theorem effect_pcReachable (i : Instr) : (effect i s).PcReachable :=
  ⟨effect_pc_le h hpc i, effect_stack_le h hpc i⟩

end PcValues

/-- A store that takes no fatal condition lies within memory. -/
theorem effect_mem_wf {i : Instr} {s : State} (h : s.mem.wf) (hc : fatalCondition i s = none) :
    (effect i s).mem.wf := by
  cases i with
  | ldB x =>
    have hbound : ¬ topAddress < s.base + 2 := fun hlt => by simp [fatalCondition, ↓if_pos hlt] at hc
    refine Memory.writeBytes_wf _ h ?_
    simp only [decimalDigits, List.length_cons, List.length_nil]
    omega
  | storeRegs x =>
    have hbound : ¬ topAddress < s.base + x.toNat := fun hlt => by simp [fatalCondition, ↓if_pos hlt] at hc
    refine Memory.writeBytes_wf _ h ?_
    rw [State.length_regBlock]
    omega
  | call nnn =>
    by_cases hroom : s.sp.val < 16
    · rwa [effect_call nnn hroom]
    · rwa [effect_call_of_full nnn hroom]
  | skp | sknp => exact (State.afterQuery_mem s _).symm ▸ h
  | ldVxK x =>
    cases hk : s.keyReport with
    | some k => rwa [effect_ldVxK x hk]
    | none => rwa [effect_ldVxK_of_hold x hk]
  | _ => exact h

/-- The invariant without its clause on the key report, which an `Fx0A` with a report meets only afterwards. -/
def State.InvButReport (s : State) : Prop := { s with keyReport := none }.Inv

theorem State.inv_iff (s : State) : s.Inv ↔ s.InvButReport ∧ s.keyReport = none :=
  ⟨fun h => ⟨{ h with report := rfl }, h.report⟩, fun ⟨h, hreport⟩ => { h with report := hreport }⟩

theorem State.InvButReport.of_raise {s : State} {c : Cause} (h : s.InvButReport) (hc : c ≠ .none) :
    (s.raise c).InvButReport := { h with latch := by simpa using hc }

theorem State.InvButReport.of_effect {s : State} {i : Instr} (h : s.InvButReport) (hpc : s.pc.toNat ≤ 0xFFE)
    (hc : fatalCondition i s = none) : (effect i s).InvButReport := by
  have hreach : s.PcReachable := h.pc
  have hsubset := writeSet_subset i
  have hhalt : (effect i s).halt = s.halt := effect_frame i s .halt fun hmem => by simpa using hsubset hmem
  have hcause : (effect i s).cause = s.cause := effect_frame i s .cause fun hmem => by simpa using hsubset hmem
  have hparams : (effect i s).params = s.params := effect_frame i s .params fun hmem => by simpa using hsubset hmem
  exact {
    memory := effect_mem_wf h.memory hc
    latch := by simpa only [hhalt, hcause] using h.latch
    pc := effect_pcReachable hreach hpc i
    font := hparams ▸ h.font
    report := rfl }

theorem State.InvButReport.of_fetchExecute {s t : State} (h : s.InvButReport) (hnext : fetchExecute s = .next t) :
    t.InvButReport := by
  rcases fetchExecute_eq_next hnext with ⟨c, hc, rfl⟩ | ⟨i, hi, hc, rfl⟩
  · exact h.of_raise hc
  · exact h.of_effect (State.pc_le_of_current hi) hc

/-- No instruction makes a key report. -/
theorem effect_keyReport_of_none (i : Instr) {s : State} (h : s.keyReport = none) : (effect i s).keyReport = none := by
  by_cases hmem : .keyReport ∈ writeSet i
  · obtain ⟨x, rfl⟩ : ∃ x, i = .ldVxK x := by cases i <;> simp_all [writeSet]
    rwa [effect_ldVxK_of_hold x h]
  · have hsame : (effect i s).keyReport = s.keyReport := effect_frame i s .keyReport hmem
    rw [hsame, h]

theorem State.Inv.of_engineTurn {s t : State} (h : s.Inv) (hnext : engineTurn s = .next t) : t.Inv := by
  obtain ⟨-, hfetch⟩ := engineTurn_eq_next hnext
  have hbut : State.InvButReport { s with executing := true } := { h with report := rfl }
  refine t.inv_iff.mpr ⟨hbut.of_fetchExecute hfetch, ?report⟩
  rcases fetchExecute_eq_next hfetch with ⟨c, -, rfl⟩ | ⟨i, -, -, rfl⟩
  · exact h.report
  · exact effect_keyReport_of_none i h.report

/-- The `Fx0A` a key report completes uses the report up (spec/45_keys_timers.md R233). -/
theorem State.Inv.of_reportKeyTurn {s t : State} {k : Nibble} (h : s.Inv) (hnext : reportKeyTurn k s = .next t) :
    t.Inv := by
  obtain ⟨hhold, hturn⟩ := reportKeyTurn_eq_next hnext
  obtain ⟨-, -, x, hx⟩ := s.holding_iff.mp hhold
  obtain ⟨-, hfetch⟩ := engineTurn_eq_next hturn
  have hbut : State.InvButReport { s with keyReport := some k, executing := true } := { h with report := rfl }
  refine t.inv_iff.mpr ⟨hbut.of_fetchExecute hfetch, ?report⟩
  have hexec : exec (.ldVxK x) { s with keyReport := some k, executing := true } = .next t :=
    (fetchExecute_of_current_some (s := { s with keyReport := some k, executing := true }) hx).symm.trans hfetch
  cases hexec
  rfl

theorem State.Inv.of_load {s : State} (program : List Byte) (h : s.Inv) : (s.load program).Inv := by
  rcases s.load_cases program with ⟨hfits, heq⟩ | ⟨-, heq⟩ | ⟨-, heq⟩ <;> rw [heq]
  · exact { h with memory := Memory.writeBytes_wf program h.memory (by simp only [topAddress_eq]; omega) }
  · exact h
  · exact { h with latch := by simp }

theorem State.Inv.of_takeTurn {turn : Turn} {s t : State} (h : s.Inv) (hnext : takeTurn turn s = .next t) : t.Inv := by
  cases turn with
  | engine => exact h.of_engineTurn hnext
  | reportKey k => exact h.of_reportKeyTurn hnext
  | powerOn p =>
    obtain ⟨hp, rfl⟩ := powerOnTurn_eq_next hnext
    exact s.inv_powerOn hp
  | load program =>
    obtain ⟨-, rfl⟩ := loadTurn_eq_next hnext
    exact h.of_load program
  | warmReset =>
    cases hnext
    exact { h with pc := ⟨by simp, h.pc.2⟩ }
  | tick | setKey | closeSink | consumeOutput | readPorts =>
    cases hnext
    exact { h with }

/-- Settles O52: the step is an engine turn or the turn the agenda names, and each turn keeps the invariant. -/
theorem stepKeepsInvariant : Obligations.StepKeepsInvariant := by
  unfold Obligations.StepKeepsInvariant
  intro s t h hnext
  rcases step_cases s with ⟨-, heq⟩ | ⟨turn, rest, -, heq⟩
  · exact h.of_engineTurn (heq.symm.trans hnext)
  · exact State.Inv.of_takeTurn (s := { s with agenda := rest }) { h with } (heq.symm.trans hnext)

end Sys2Proof.Machine
end

section
/-! PROOFS. What a step never reads: the Output history and the stack entries that are not live (spec/10_state.md R25, R31).
One simulation serves both: a relation between states that differ in the stack and the history alone, and that each
instruction keeps, is kept by every turn but a power-on, which writes both afresh. -/

namespace Sys2Proof.Machine

/-- `s` with another stack and another Output history. -/
def State.withUnread (stack : Vector Word 16) (out : List Message) (s : State) : State :=
  { s with stack := stack, out := out }

section WithUnread

variable (stack : Vector Word 16) (out : List Message) (s : State)

/-- No instruction decides by the stack's contents or the history whether it completes. -/
theorem fatalCondition_withUnread (i : Instr) : fatalCondition i (s.withUnread stack out) = fatalCondition i s := by
  cases i <;> rfl

theorem State.load_withUnread (program : List Byte) :
    (s.withUnread stack out).load program = (s.load program).withUnread stack out := by
  unfold State.load State.rejectProgram
  split
  · rfl
  · rw [apply_ite (State.withUnread stack out)]
    rfl

theorem State.afterQuery_withUnread (k : Byte) :
    (s.withUnread stack out).afterQuery k = (s.afterQuery k).withUnread stack out := by
  unfold State.afterQuery
  split <;> rfl

theorem effect_ldVxK_withUnread (x : Nibble) :
    effect (.ldVxK x) (s.withUnread stack out) = (effect (.ldVxK x) s).withUnread stack out := by
  cases hk : s.keyReport with
  | some k =>
    rw [effect_ldVxK x hk, effect_ldVxK (s := s.withUnread stack out) x hk]
    rfl
  | none => rw [effect_ldVxK_of_hold x hk, effect_ldVxK_of_hold (s := s.withUnread stack out) x hk]

/-- Of the instructions only RET reads the stack's contents, only CALL writes them, and CLS and DRW add to the history. -/
theorem effect_withUnread {i : Instr} (hret : i ≠ .ret) (hcall : ∀ nnn, i ≠ .call nnn) :
    effect i (s.withUnread stack out) = (effect i s).withUnread stack (out ++ messages i (effect i s)) := by
  cases i with
  | ret => exact absurd rfl hret
  | call nnn => exact absurd rfl (hcall nnn)
  | cls | drw => rfl
  | skp x | sknp x =>
    rw [messages, List.append_nil, effect, State.afterQuery_withUnread]
    rfl
  | ldVxK x => rw [messages, List.append_nil, effect_ldVxK_withUnread]
  | _ => rw [messages, List.append_nil]; rfl

theorem effect_stack_of_not_call {i : Instr} (hcall : ∀ nnn, i ≠ .call nnn) : (effect i s).stack = s.stack :=
  effect_frame i s .stack fun hmem => (of_stack_mem_writeSet hmem).elim hcall

theorem effect_sp_of_not_flow {i : Instr} (hret : i ≠ .ret) (hcall : ∀ nnn, i ≠ .call nnn) :
    (effect i s).sp = s.sp :=
  effect_frame i s .sp fun hmem => (of_sp_mem_writeSet hmem).elim hret fun h => h.elim hcall

end WithUnread

/-- `R` relates only states that differ in the stack and the Output history alone, and every update that a turn other than a
power-on makes keeps it. -/
structure Unread (R : State → State → Prop) : Prop where
  /-- What a step consults besides the two is the same. -/
  differ : ∀ {s s'}, R s s' → ∃ stack out, s' = s.withUnread stack out
  /-- An update that writes neither of the two, and leaves `SP` or sets it to 0. -/
  keep : ∀ {s t stack out}, R s (s.withUnread stack out) → t.stack = s.stack → t.out = s.out → t.sp = s.sp ∨ t.sp = 0 →
    R t (t.withUnread stack out)
  /-- An instruction that completes. -/
  effect : ∀ {s s' i}, R s s' → fatalCondition i s = none → R (effect i s) (effect i s')

/-- `f` takes related states to related states. -/
def Simulates (R : State → State → Prop) (f : State → Result) : Prop :=
  ∀ {s s' t}, R s s' → f s = .next t → ∃ t', f s' = .next t' ∧ R t t'

namespace Unread

variable {R : State → State → Prop} (hR : Unread R)
include hR

theorem raise {c : Cause} {s s' : State} (h : R s s') : R (s.raise c) (s'.raise c) := by
  obtain ⟨stack, out, rfl⟩ := hR.differ h
  exact hR.keep h rfl rfl (.inl rfl)

theorem exec (i : Instr) : Simulates R (exec i) := by
  intro s s' t h hnext
  have hcond : fatalCondition i s' = fatalCondition i s := by
    obtain ⟨stack, out, rfl⟩ := hR.differ h
    exact fatalCondition_withUnread stack out s i
  rcases exec_eq_next hnext with ⟨c, hc, rfl⟩ | ⟨hc, rfl⟩
  · exact ⟨_, exec_of_fatalCondition_some (hcond.trans hc), hR.raise h⟩
  · exact ⟨_, exec_of_fatalCondition_none (hcond.trans hc), hR.effect h hc⟩

theorem fetchExecute : Simulates R fetchExecute := by
  intro s s' t h hnext
  have hfetch : s'.fetch = s.fetch := by
    obtain ⟨stack, out, rfl⟩ := hR.differ h
    rfl
  have hcurrent : s'.current = s.current := by rw [State.current, State.current, hfetch]
  cases hi : s.current with
  | none =>
    rw [fetchExecute_of_current_none hi] at hnext
    rw [fetchExecute_of_current_none (hcurrent.trans hi), State.fetchCondition, hfetch]
    cases hnext
    exact ⟨_, rfl, hR.raise h⟩
  | some i =>
    rw [fetchExecute_of_current_some hi] at hnext
    rw [fetchExecute_of_current_some (hcurrent.trans hi)]
    exact hR.exec i h hnext

theorem engineTurn : Simulates R engineTurn := by
  intro s s' t h hnext
  obtain ⟨hrun, hfetch⟩ := engineTurn_eq_next hnext
  obtain ⟨stack, out, rfl⟩ := hR.differ h
  rw [engineTurn_of_running (s := s.withUnread stack out) hrun]
  exact hR.fetchExecute (hR.keep (t := { s with executing := true }) h rfl rfl (.inl rfl)) hfetch

theorem reportKeyTurn (k : Nibble) : Simulates R (reportKeyTurn k) := by
  intro s s' t h hnext
  obtain ⟨hhold, hturn⟩ := reportKeyTurn_eq_next hnext
  obtain ⟨stack, out, rfl⟩ := hR.differ h
  have heq : Machine.reportKeyTurn k (s.withUnread stack out) =
      Machine.engineTurn { s.withUnread stack out with keyReport := some k } := if_pos hhold
  rw [heq]
  exact hR.engineTurn (hR.keep (t := { s with keyReport := some k }) h rfl rfl (.inl rfl)) hturn

theorem loadTurn (program : List Byte) : Simulates R (loadTurn program) := by
  intro s s' t h hnext
  obtain ⟨hidle, rfl⟩ := loadTurn_eq_next hnext
  obtain ⟨stack, out, rfl⟩ := hR.differ h
  have heq : Machine.loadTurn program (s.withUnread stack out) = .next ((s.load program).withUnread stack out) := by
    rw [← State.load_withUnread]
    exact if_neg (Bool.eq_false_iff.mp hidle)
  obtain ⟨hstack, hout, hsp⟩ := s.load_keeps program
  exact ⟨_, heq, hR.keep h hstack hout (.inl hsp)⟩

theorem takeTurn {turn : Turn} (hp : ∀ p, turn ≠ .powerOn p) : Simulates R (takeTurn turn) := by
  intro s s' t h hnext
  cases turn with
  | engine => exact hR.engineTurn h hnext
  | reportKey k => exact hR.reportKeyTurn k h hnext
  | load program => exact hR.loadTurn program h hnext
  | powerOn p => exact absurd rfl (hp p)
  | consumeOutput | readPorts =>
    cases hnext
    exact ⟨_, rfl, h⟩
  | tick | setKey | closeSink =>
    obtain ⟨stack, out, rfl⟩ := hR.differ h
    cases hnext
    exact ⟨_, rfl, hR.keep h rfl rfl (.inl rfl)⟩
  | warmReset =>
    obtain ⟨stack, out, rfl⟩ := hR.differ h
    cases hnext
    exact ⟨_, rfl, hR.keep h rfl rfl (.inr rfl)⟩

theorem step {s s' t : State} (h : R s s') (hnext : step s = .next t) (hp : ¬ s.PowersOn) :
    ∃ t', step s' = .next t' ∧ R t t' := by
  obtain ⟨stack, out, rfl⟩ := hR.differ h
  rcases step_cases s with ⟨hagenda, heq⟩ | ⟨turn, rest, hagenda, heq⟩
  · have heq' : Machine.step (s.withUnread stack out) = Machine.engineTurn (s.withUnread stack out) := by
      rw [Machine.step, show (s.withUnread stack out).agenda = [] from hagenda]
    rw [heq']
    exact hR.engineTurn h (heq.symm.trans hnext)
  · have hturn (p : Params) : turn ≠ .powerOn p := by
      rintro rfl
      exact hp ⟨p, rest, hagenda⟩
    have heq' : Machine.step (s.withUnread stack out) =
        Machine.takeTurn turn { s.withUnread stack out with agenda := rest } := by
      rw [Machine.step, show (s.withUnread stack out).agenda = turn :: rest from hagenda]
    rw [heq']
    exact hR.takeTurn hturn (hR.keep (t := { s with agenda := rest }) h rfl rfl (.inl rfl)) (heq.symm.trans hnext)

end Unread

/-- The Output histories of `s` and `s'` continue `old` and `new` by the same messages, and all else is the same. -/
def SameButHistory (old new : List Message) (s s' : State) : Prop :=
  ∃ sent, s.out = old ++ sent ∧ s' = s.withUnread s.stack (new ++ sent)

/-- An instruction sends the same messages on any history. -/
theorem effect_withHistory (i : Instr) (s : State) (out : List Message) :
    effect i (s.withUnread s.stack out) = (effect i s).withUnread (effect i s).stack (out ++ messages i (effect i s)) := by
  by_cases hret : i = .ret
  · subst hret
    rw [messages, List.append_nil]
    rfl
  by_cases hcall : ∃ nnn, i = .call nnn
  · obtain ⟨nnn, rfl⟩ := hcall
    rw [messages, List.append_nil]
    by_cases hroom : s.sp.val < 16
    · rw [effect_call nnn hroom, effect_call (s := s.withUnread s.stack out) nnn hroom]
      rfl
    · rw [effect_call_of_full nnn hroom, effect_call_of_full (s := s.withUnread s.stack out) nnn hroom]
  rw [not_exists] at hcall
  rw [effect_withUnread _ _ s hret hcall, effect_stack_of_not_call s hcall]

theorem sameButHistory_unread (old new : List Message) : Unread (SameButHistory old new) where
  differ := fun ⟨sent, _, hs'⟩ => ⟨_, _, hs'⟩
  keep := by
    rintro s t stack out ⟨sent, hout, hs'⟩ hstack htout -
    obtain rfl : stack = s.stack := congrArg State.stack hs'
    obtain rfl : out = new ++ sent := congrArg State.out hs'
    exact ⟨sent, htout.trans hout, by rw [hstack]⟩
  effect := by
    rintro s s' i ⟨sent, hout, rfl⟩ -
    refine ⟨sent ++ messages i (effect i s), ?_, ?_⟩
    · rw [effect_out, hout, List.append_assoc]
    · rw [effect_withHistory, List.append_assoc]

/-- Settles O58: the simulation from histories that have nothing in common yet. -/
theorem outputHistoryNeverRead : Obligations.OutputHistoryNeverRead := by
  unfold Obligations.OutputHistoryNeverRead
  intro s t history hnext hp
  have hstart : SameButHistory s.out history s { s with out := history } :=
    ⟨[], (List.append_nil _).symm, by rw [List.append_nil]; rfl⟩
  obtain ⟨t', hstep, sent, hout, rfl⟩ := (sameButHistory_unread s.out history).step hstart hnext hp
  rw [hstep, hout, List.drop_left]
  rfl

theorem sameLive_withUnread_iff (s : State) (stack : Vector Word 16) (out : List Message) :
    SameLive s (s.withUnread stack out) ↔ out = s.out ∧ ∀ k : Fin 16, k.val < s.sp.val → stack[k] = s.stack[k] :=
  ⟨fun ⟨hs', hlive⟩ => ⟨congrArg State.out hs', hlive⟩, fun ⟨hout, hlive⟩ => ⟨by rw [hout]; rfl, hlive⟩⟩

theorem SameLive.exists_withUnread {s s' : State} (h : SameLive s s') : ∃ stack, s' = s.withUnread stack s.out :=
  ⟨s'.stack, h.1⟩

/-- RET reads the newest live entry. -/
theorem effect_ret_sameLive {s s' : State} (h : SameLive s s') (hlive : s.sp.val ≠ 0) :
    SameLive (effect .ret s) (effect .ret s') := by
  obtain ⟨stack, rfl⟩ := h.exists_withUnread
  have htop : (s.withUnread stack s.out).top = s.top := h.2 ⟨s.sp.val - 1, by omega⟩ (by simp only; omega)
  refine ⟨?_, fun k hk => h.2 k (Nat.lt_of_lt_of_le hk (Nat.sub_le _ _))⟩
  rw [effect, effect, htop]
  rfl

/-- CALL writes the entry that becomes live. -/
theorem effect_call_sameLive {s s' : State} (nnn : Addr) (h : SameLive s s') :
    SameLive (effect (.call nnn) s) (effect (.call nnn) s') := by
  obtain ⟨stack, rfl⟩ := h.exists_withUnread
  by_cases hroom : s.sp.val < 16
  · rw [effect_call nnn hroom, effect_call (s := s.withUnread stack s.out) nnn hroom]
    refine ⟨rfl, fun k hk => ?_⟩
    show (stack.set s.sp.val (s.pc + 2) hroom)[k.val] = (s.stack.set s.sp.val (s.pc + 2) hroom)[k.val]
    rw [Vector.getElem_set, Vector.getElem_set]
    split
    · rfl
    · next hne => exact h.2 k (by have hk' : k.val < s.sp.val + 1 := hk; omega)
  · rwa [effect_call_of_full nnn hroom, effect_call_of_full (s := s.withUnread stack s.out) nnn hroom]

theorem sameLive_unread : Unread SameLive where
  differ := fun h => ⟨_, _, h.1⟩
  keep := by
    rintro s t stack out h hstack hout hsp
    obtain ⟨rfl, hlive⟩ := (sameLive_withUnread_iff s stack out).mp h
    refine (sameLive_withUnread_iff t stack s.out).mpr ⟨hout.symm, fun k hk => ?_⟩
    rcases hsp with hsp | hsp
    · rw [hstack]
      exact hlive k (hsp ▸ hk)
    · rw [hsp] at hk
      exact absurd hk (Nat.not_lt_zero _)
  effect := by
    intro s s' i h hcond
    by_cases hret : i = .ret
    · subst hret
      exact effect_ret_sameLive h fun h0 => by simp [fatalCondition, h0] at hcond
    by_cases hcall : ∃ nnn, i = .call nnn
    · obtain ⟨nnn, rfl⟩ := hcall
      exact effect_call_sameLive nnn h
    rw [not_exists] at hcall
    obtain ⟨stack, rfl⟩ := h.exists_withUnread
    rw [effect_withUnread _ _ s hret hcall, sameLive_withUnread_iff, effect_stack_of_not_call s hcall,
      effect_sp_of_not_flow s hret hcall]
    exact ⟨(effect_out i s).symm, h.2⟩

/-- Settles O59: a power-on gives both states the same stack, and every other step is simulated. -/
theorem deadStackEntriesNeverRead : Obligations.DeadStackEntriesNeverRead := by
  unfold Obligations.DeadStackEntriesNeverRead
  intro s s' t h hnext
  by_cases hp : s.PowersOn
  · obtain ⟨p, rest, hagenda⟩ := hp
    obtain ⟨stack, rfl⟩ := h.exists_withUnread
    have heq : step (s.withUnread stack s.out) = step s := by
      rw [step, step, show (s.withUnread stack s.out).agenda = s.agenda from rfl, hagenda]
      rfl
    exact ⟨t, heq.trans hnext, rfl, fun _ _ => rfl⟩
  · exact sameLive_unread.step h hnext hp

end Sys2Proof.Machine
end

section
/-! PROOFS. What the engine executes on its turn (spec/40_cycle.md R121), what a fetch outside memory does (spec/20_memory.md
R64), and the ticker's turn (spec/45_keys_timers.md R237). -/

namespace Sys2Proof.Machine

/-- A frame may list more pieces, in any order. -/
theorem Frame.mono {c d : List Part} {s t : State} (h : Frame c s t) (hsub : c ⊆ d) : Frame d s t :=
  fun p hp => h p fun hmem => hp (hsub hmem)

theorem frame_agenda (s : State) (rest : List Turn) : Frame [.agenda] s { s with agenda := rest } := by
  intro p hp
  cases p <;> simp_all [Part.Same, State.reg]

theorem frame_executing (s : State) (b : Bool) : Frame [.executing] s { s with executing := b } := by
  intro p hp
  cases p <;> simp_all [Part.Same, State.reg]

theorem frame_tick (s : State) : Frame [.dt, .st] s s.tick :=
  (frame_dt s (countDown s.dt)).trans (frame_st _ (countDown s.st))

/-- The engine moves by default, or because the agenda names it (log 3). -/
theorem step_of_engineMoves {s : State} {rest : List Turn} (h : s.EngineMoves rest) :
    step s = engineTurn { s with agenda := rest } := by
  rcases h with hnamed | ⟨hnone, rfl⟩
  · simp only [step, hnamed, takeTurn]
  · simp only [step, hnone]
    rw [← hnone]

/-- A running engine fetches and executes, marked as executing (log 10). -/
theorem step_of_running {s : State} {rest : List Turn} (h : s.EngineMoves rest) (hrun : s.halt = false) :
    step s = fetchExecute { s with agenda := rest, executing := true } :=
  (step_of_engineMoves h).trans (engineTurn_of_running (s := { s with agenda := rest }) hrun)

theorem decode_two_bytes_iff (hi lo : Byte) (i : Instr) :
    decode [hi, lo] = .instr i [] ↔ decodeWord (joinBytes hi lo) = some i := by
  cases h : decodeWord (joinBytes hi lo) <;> simp [decode, h]

/-- The instruction at `PC` is what its two bytes decode to, both within memory (spec/20_memory.md R64). -/
theorem State.current_eq_some_iff (s : State) (i : Instr) :
    s.current = some i ↔
      s.pc.toNat + 1 ≤ 0xFFF ∧ decode [s.mem.read s.pc.toNat, s.mem.read (s.pc.toNat + 1)] = .instr i [] := by
  simp only [State.current, Option.bind_eq_some_iff, State.fetch_eq_some_iff, topAddress_eq, decode_two_bytes_iff]
  constructor
  · rintro ⟨w, ⟨hpc, rfl⟩, hdecode⟩
    exact ⟨hpc, hdecode⟩
  · rintro ⟨hpc, hdecode⟩
    exact ⟨_, ⟨hpc, rfl⟩, hdecode⟩

/-- A fetch whose second byte lies above 0xFFF is `MemoryBounds` (spec/20_memory.md R64, decision D4). -/
theorem fetchExecute_of_pc_ge {s : State} (h : 0xFFF ≤ s.pc.toNat) : fetchExecute s = fatal .memoryBounds s := by
  have hfetch : s.fetch = none := if_pos (by rw [topAddress_eq]; omega)
  simp only [fetchExecute, hfetch]

/-- A timer falls by one or stays at 0 (spec/45_keys_timers.md R237, decision D18). -/
theorem toNat_countDown (b : Byte) : (countDown b).toNat = b.toNat - 1 := by
  unfold countDown
  split
  · next hzero => rw [hzero]; rfl
  · next hne => bv_omega

/-- Settles O6: the engine's turn is a fetch with dispatch, which finds `i` at `PC`. -/
theorem stepRunsDecodedInstruction : Obligations.StepRunsDecodedInstruction := by
  unfold Obligations.StepRunsDecodedInstruction
  intro s rest i hmoves hrun hpc hdecode
  rw [step_of_running hmoves hrun]
  exact fetchExecute_of_current_some ((State.current_eq_some_iff _ i).mpr ⟨hpc, hdecode⟩)

/-- Settles O7: the engine's turn raises `MemoryBounds` after the turn and the mark are written. -/
theorem fetchOutsideMemory : Obligations.FetchOutsideMemory := by
  unfold Obligations.FetchOutsideMemory
  intro s rest hmoves hrun hpc
  have hstep : step s = fatal .memoryBounds { s with agenda := rest, executing := true } :=
    (step_of_running hmoves hrun).trans (fetchExecute_of_pc_ge hpc)
  have hframe := ((frame_agenda s rest).trans (frame_executing _ true)).trans (frame_raise _ .memoryBounds)
  exact ⟨_, hstep, rfl, rfl, rfl, hframe.mono (by decide)⟩

/-- Settles O43: the turn is `State.tick`, which does not look at `HALT` or at what the engine waits for. -/
theorem tickResult : Obligations.TickResult := by
  unfold Obligations.TickResult
  intro s rest hagenda
  have hstep : step s = .next { s with agenda := rest }.tick := by simp only [step, hagenda, takeTurn]
  have hframe := (frame_agenda s rest).trans (frame_tick _)
  exact ⟨_, hstep, toNat_countDown s.dt, toNat_countDown s.st, rfl, hframe.mono (by decide)⟩

end Sys2Proof.Machine
end

section
/-! PROOFS. The memory transfers through `I` (spec/43_index_memory.md R193 to R195): what each stores or loads within memory,
the fatal condition outside it (spec/20_memory.md R65), and a store that the next fetch sees (R72). -/

namespace Sys2Proof.Machine

section Bounds

/-! The fatal condition of the instructions that access memory through `I`, by their highest address
(spec/20_memory.md R65). -/

variable (s : State)

theorem fatalCondition_ldB_of_le (x : Nibble) (h : s.base + 2 ≤ 0xFFF) : fatalCondition (.ldB x) s = none :=
  if_neg (Nat.not_lt.mpr h)

theorem fatalCondition_storeRegs_of_le {x : Nibble} (h : s.base + x.toNat ≤ 0xFFF) :
    fatalCondition (.storeRegs x) s = none :=
  if_neg (Nat.not_lt.mpr h)

theorem fatalCondition_loadRegs_of_le {x : Nibble} (h : s.base + x.toNat ≤ 0xFFF) :
    fatalCondition (.loadRegs x) s = none :=
  if_neg (Nat.not_lt.mpr h)

/-- The condition comes before that of a closed sink (spec/60_exceptions.md R259, decision D32). -/
theorem fatalCondition_drw_of_lt (x y : Nibble) {n : Nibble} (hn : 0 < n.toNat) (h : 0xFFF < s.base + n.toNat - 1) :
    fatalCondition (.drw x y n) s = some .memoryBounds := by
  have hne : n ≠ 0 := by
    rintro rfl
    exact absurd hn (by decide)
  exact if_pos ⟨hne, h⟩

/-- An instruction with a fatal condition takes it and changes nothing else (spec/60_exceptions.md R252). -/
theorem raises_of_fatalCondition {i : Instr} {c : Cause} (h : fatalCondition i s = some c) : Raises c i s :=
  ⟨s.raise c, exec_of_fatalCondition_some h, rfl, rfl, frame_raise s c⟩

end Bounds

/-- Settles O29: each form has `MemoryBounds` as its fatal condition there. -/
theorem accessOutsideMemory : Obligations.AccessOutsideMemory := by
  unfold Obligations.AccessOutsideMemory
  intro x y n s
  refine ⟨fun h => ?ldB, fun h => ⟨?storeRegs, ?loadRegs⟩, fun hn h => ?drw⟩
  case ldB => exact raises_of_fatalCondition s (if_pos h)
  case storeRegs => exact raises_of_fatalCondition s (if_pos h)
  case loadRegs => exact raises_of_fatalCondition s (if_pos h)
  case drw => exact raises_of_fatalCondition s (fatalCondition_drw_of_lt s x y hn h)

section Blocks

variable {m : Memory} (hm : m.wf) (a : Nat) (bs : List Byte)
include hm

/-- Byte `k` of a stored block. -/
theorem Memory.read_writeBytes_add {k : Nat} (hk : k < bs.length) : (m.writeBytes a bs).read (a + k) = bs[k] := by
  rw [Memory.read_writeBytes hm.1, dif_pos (by omega)]
  simp only [Nat.add_sub_cancel_left]

/-- A block store leaves the bytes outside the block. -/
theorem Memory.read_writeBytes_outside {b : Nat} (hb : b < a ∨ a + bs.length ≤ b) :
    (m.writeBytes a bs).read b = m.read b := by
  rw [Memory.read_writeBytes hm.1, dif_neg (by omega)]

end Blocks

theorem advanced_advance (s : State) : Advanced s s.advance := BitVec.toNat_add s.pc 2

/-- Each digit fits a byte (spec/43_index_memory.md R193). -/
theorem map_toNat_decimalDigits (b : Byte) :
    (decimalDigits b).map BitVec.toNat = [b.toNat / 100, b.toNat / 10 % 10, b.toNat % 10] := by
  have hlt := b.isLt
  simp only [decimalDigits, List.map_cons, List.map_nil, BitVec.toNat_ofNat, List.cons.injEq, and_true]
  omega

/-- Digit `k` is stored at `I + k` (spec/43_index_memory.md R193). -/
theorem toNat_read_effect_ldB {s : State} (hwf : s.mem.wf) (x : Nibble) {k : Nat} (hk : k < 3) :
    ((effect (.ldB x) s).mem.read (s.base + k)).toNat =
      [(s.reg x).toNat / 100, (s.reg x).toNat / 10 % 10, (s.reg x).toNat % 10][k] := by
  have hlen : k < (decimalDigits (s.reg x)).length := hk
  have hread : (effect (.ldB x) s).mem.read (s.base + k) = (decimalDigits (s.reg x))[k] :=
    Memory.read_writeBytes_add hwf s.base _ hlen
  rw [hread, ← List.getElem_map BitVec.toNat (h := by rwa [List.length_map])]
  exact List.getElem_of_eq (map_toNat_decimalDigits (s.reg x)) _

/-- Settles O26: the three digits are one block store at `I`. -/
theorem decimalStoreResult : Obligations.DecimalStoreResult := by
  unfold Obligations.DecimalStoreResult
  intro x s hwf hbound
  exact ⟨_, exec_of_fatalCondition_none (fatalCondition_ldB_of_le s x hbound),
    toNat_read_effect_ldB hwf x (k := 0) (by decide), toNat_read_effect_ldB hwf x (k := 1) (by decide),
    toNat_read_effect_ldB hwf x (k := 2) (by decide),
    fun _ ha => Memory.read_writeBytes_outside hwf s.base (decimalDigits (s.reg x)) ha, advanced_advance _,
    effect_frame (.ldB x) s⟩

/-- `Vk` is stored at `I + k` (spec/43_index_memory.md R194). -/
theorem read_effect_storeRegs {s : State} (hwf : s.mem.wf) {x k : Nibble} (hk : k.toNat ≤ x.toNat) :
    (effect (.storeRegs x) s).mem.read (s.base + k.toNat) = s.reg k := by
  have hlen : k.toNat < (s.regBlock x).length := by rw [State.length_regBlock]; omega
  exact (Memory.read_writeBytes_add hwf s.base _ hlen).trans (s.getElem_regBlock x k hlen)

/-- Settles O27: the registers are one block store at `I`. -/
theorem registerStoreResult : Obligations.RegisterStoreResult := by
  unfold Obligations.RegisterStoreResult
  intro x s hwf hbound
  refine ⟨_, exec_of_fatalCondition_none (fatalCondition_storeRegs_of_le s hbound), fun k => read_effect_storeRegs hwf,
    fun a ha => ?others, advanced_advance _, effect_frame (.storeRegs x) s⟩
  case others =>
    refine Memory.read_writeBytes_outside hwf s.base (s.regBlock x) ?_
    rw [State.length_regBlock]
    omega

/-- `V0` to `Vx` are loaded, the registers above keep their values (spec/43_index_memory.md R195). -/
theorem reg_effect_loadRegs (s : State) (x k : Nibble) :
    (effect (.loadRegs x) s).reg k = if k.toNat < x.toNat + 1 then s.mem.read (s.base + k.toNat) else s.reg k :=
  getElem_loadBlock s.mem s.base s.v (x.toNat + 1) k.toNat k.isLt

/-- `I` moves past the block (spec/43_index_memory.md R195), and does not wrap within memory. -/
theorem toNat_effect_loadRegs_i {s : State} {x : Nibble} (hbound : s.base + x.toNat ≤ 0xFFF) :
    (effect (.loadRegs x) s).i.toNat = s.i.toNat + x.toNat + 1 := by
  have hlt : s.i.toNat + x.toNat ≤ 0xFFF := hbound
  rw [effect, State.advance_i]
  bv_omega

/-- Settles O28: by the laws of the block load. -/
theorem registerLoadResult : Obligations.RegisterLoadResult := by
  unfold Obligations.RegisterLoadResult
  intro x s hbound
  refine ⟨_, exec_of_fatalCondition_none (fatalCondition_loadRegs_of_le s hbound), fun k hk => ?loaded, fun k hk => ?kept,
    toNat_effect_loadRegs_i hbound, advanced_advance _, effect_frame (.loadRegs x) s⟩
  case loaded => rw [reg_effect_loadRegs, if_pos (Nat.lt_succ_of_le hk)]
  case kept => rw [reg_effect_loadRegs, if_neg (by omega)]

/-- The two bytes of `i`, stored from `V0` and `V1` over the next word, are the instruction there (spec/20_memory.md R72). -/
theorem current_effect_storeRegs {s : State} {x : Nibble} {i : Instr} (hwf : s.mem.wf) (hx : 1 ≤ x.toNat)
    (hnext : (s.pc + 2).toNat = s.base) (hbound : s.base + x.toNat ≤ 0xFFF)
    (hdecode : decode [s.reg 0, s.reg 1] = .instr i []) : (effect (.storeRegs x) s).current = some i := by
  have hpc : (effect (.storeRegs x) s).pc.toNat = s.base := hnext
  have hfirst : (effect (.storeRegs x) s).mem.read s.base = s.reg 0 := read_effect_storeRegs hwf (k := 0) (Nat.zero_le _)
  have hsecond : (effect (.storeRegs x) s).mem.read (s.base + 1) = s.reg 1 := read_effect_storeRegs hwf (k := 1) hx
  rw [State.current_eq_some_iff, hpc, hfirst, hsecond]
  exact ⟨by omega, hdecode⟩

/-- Settles O31: the store completes with `PC` at `I`, where the next step finds the bytes it stored. -/
theorem storedCodeIsFetched : Obligations.StoredCodeIsFetched := by
  unfold Obligations.StoredCodeIsFetched
  intro s x i hagenda hrun hwf hcurrent hx hbase hbound hdecode
  have hnext : (s.pc + 2).toNat = s.base := (advanced_advance s).trans (by omega)
  have hstore : step s = exec (.storeRegs x) { s with agenda := [], executing := true } :=
    (step_of_running (.inr ⟨hagenda, rfl⟩) hrun).trans (fetchExecute_of_current_some hcurrent)
  refine ⟨effect (.storeRegs x) { s with agenda := [], executing := true },
    hstore.trans (exec_of_fatalCondition_none (fatalCondition_storeRegs_of_le _ hbound)), hnext, ?second⟩
  case second =>
    have hmoves : (effect (.storeRegs x) { s with agenda := [], executing := true }).EngineMoves [] := .inr ⟨rfl, rfl⟩
    refine (step_of_running hmoves hrun).trans (fetchExecute_of_current_some ?_)
    exact current_effect_storeRegs (s := { s with agenda := [], executing := true }) hwf hx hnext hbound hdecode

end Sys2Proof.Machine
end

section
/-! PROOFS. Decoding and encoding undo each other (spec/30_encoding.md R96, R102), a word lies in a row of the opcode map
exactly when the row's instructions encode as it (R96), the words that are no instruction (R98), and what the engine does at
one (spec/60_exceptions.md R252). -/

namespace Sys2Proof.Machine

open Sys2Proof.Laws

/-- Every instruction is what its word decodes to: the class selects the arm, and the fields come back format by format
(R93, R95). -/
theorem decodeWord_encodeWord (i : Instr) : decodeWord (encodeWord i) = some i := by
  cases i
  case cls | ret => rfl
  case jp | call | ldI | jpV0 =>
    simp [encodeWord, decodeWord_class1, decodeWord_class2, decodeWord_classA, decodeWord_classB]
  case seImm | sneImm | ldImm | addImm | rnd =>
    simp [encodeWord, decodeWord_class3, decodeWord_class4, decodeWord_class6, decodeWord_class7, decodeWord_classC]
  case seReg | sneReg | drw => simp [encodeWord, decodeWord_class5, decodeWord_class9, decodeWord_classD]
  case ldReg | orReg | andReg | xorReg | addReg | subReg | shr | subn | shl =>
    simp [encodeWord, decodeWord_class8, decodeAlu]
  case skp | sknp => simp [encodeWord, decodeWord_classE, decodeKey]
  case ldVxDt | ldVxK | ldDtVx | ldStVx | addI | ldF | ldB | storeRegs | loadRegs =>
    simp [encodeWord, decodeWord_classF, decodeMisc]

section SubOpcodes

/-! The digit or byte that selects within the classes 8, E and F is the one encoded (R97), and the values that select
nothing are those the table of R98 does not list. -/

variable {x y : Nibble} {n : Nat} {i : Instr}

theorem encodeWord_of_decodeAlu (h : decodeAlu x y n = some i) :
    encodeWord i = wordXYN 0x8 x y (BitVec.ofNat 4 n) := by
  unfold decodeAlu at h
  split at h <;> cases h <;> rfl

theorem encodeWord_of_decodeKey (h : decodeKey x n = some i) : encodeWord i = wordXK 0xE x (BitVec.ofNat 8 n) := by
  unfold decodeKey at h
  split at h <;> cases h <;> rfl

theorem encodeWord_of_decodeMisc (h : decodeMisc x n = some i) : encodeWord i = wordXK 0xF x (BitVec.ofNat 8 n) := by
  unfold decodeMisc at h
  split at h <;> cases h <;> rfl

theorem decodeAlu_eq_none_iff : decodeAlu x y n = none ↔ n ∉ [0x0, 0x1, 0x2, 0x3, 0x4, 0x5, 0x6, 0x7, 0xE] := by
  unfold decodeAlu
  split <;> simp_all

theorem decodeKey_eq_none_iff : decodeKey x n = none ↔ n ∉ [0x9E, 0xA1] := by
  unfold decodeKey
  split <;> simp_all

theorem decodeMisc_eq_none_iff :
    decodeMisc x n = none ↔ n ∉ [0x07, 0x0A, 0x15, 0x18, 0x1E, 0x29, 0x33, 0x55, 0x65] := by
  unfold decodeMisc
  split <;> simp_all

end SubOpcodes

/-- No bit of a recognised word is ignored (R100): class by class, the word is the fields that its instruction carries. -/
theorem encodeWord_of_decodeWord {w : Word} {i : Instr} (h : decodeWord w = some i) : encodeWord i = w := by
  rcases nibble_cases (opClass w) with
    hc | hc | hc | hc | hc | hc | hc | hc | hc | hc | hc | hc | hc | hc | hc | hc
  · rw [decodeWord_class0 hc] at h
    split at h
    · next hcls => cases h; exact hcls.symm
    · obtain ⟨hret, ⟨⟩⟩ := Option.ite_none_right_eq_some.mp h
      exact hret.symm
  · cases (decodeWord_class1 hc).symm.trans h; exact wordA_of_fields hc
  · cases (decodeWord_class2 hc).symm.trans h; exact wordA_of_fields hc
  · cases (decodeWord_class3 hc).symm.trans h; exact wordXK_of_fields hc rfl
  · cases (decodeWord_class4 hc).symm.trans h; exact wordXK_of_fields hc rfl
  · obtain ⟨hn, ⟨⟩⟩ := Option.ite_none_right_eq_some.mp ((decodeWord_class5 hc).symm.trans h)
    exact wordXYN_of_fields hc hn
  · cases (decodeWord_class6 hc).symm.trans h; exact wordXK_of_fields hc rfl
  · cases (decodeWord_class7 hc).symm.trans h; exact wordXK_of_fields hc rfl
  · exact (encodeWord_of_decodeAlu ((decodeWord_class8 hc).symm.trans h)).trans (wordXYN_of_fields hc (by simp))
  · obtain ⟨hn, ⟨⟩⟩ := Option.ite_none_right_eq_some.mp ((decodeWord_class9 hc).symm.trans h)
    exact wordXYN_of_fields hc hn
  · cases (decodeWord_classA hc).symm.trans h; exact wordA_of_fields hc
  · cases (decodeWord_classB hc).symm.trans h; exact wordA_of_fields hc
  · cases (decodeWord_classC hc).symm.trans h; exact wordXK_of_fields hc rfl
  · cases (decodeWord_classD hc).symm.trans h; exact wordXYN_of_fields hc rfl
  · exact (encodeWord_of_decodeKey ((decodeWord_classE hc).symm.trans h)).trans (wordXK_of_fields hc (by simp))
  · exact (encodeWord_of_decodeMisc ((decodeWord_classF hc).symm.trans h)).trans (wordXK_of_fields hc (by simp))

/-- Decoding and encoding undo each other (R96, R102). -/
theorem decodeWord_eq_some_iff (w : Word) (i : Instr) : decodeWord w = some i ↔ encodeWord i = w :=
  ⟨encodeWord_of_decodeWord, fun h => h ▸ decodeWord_encodeWord i⟩

theorem decode_eq_instr_iff (hi lo : Byte) (rest left : List Byte) (i : Instr) :
    decode (hi :: lo :: rest) = .instr i left ↔ encodeWord i = joinBytes hi lo ∧ left = rest := by
  rw [← decodeWord_eq_some_iff]
  cases h : decodeWord (joinBytes hi lo) <;> simp [decode, h, eq_comm]

/-- Settles O1: the two bytes join to the instruction's word. -/
theorem decodeOfEncode : Obligations.DecodeOfEncode := by
  unfold Obligations.DecodeOfEncode
  intro i rest
  exact (decode_eq_instr_iff _ _ rest rest i).mpr ⟨(joinBytes_highByte_lowByte _).symm, rfl⟩

/-- Settles O2: the bytes are those of the word, which is the instruction's. -/
theorem encodeOfDecode : Obligations.EncodeOfDecode := by
  unfold Obligations.EncodeOfDecode
  intro hi lo rest left i h
  obtain ⟨hword, hleft⟩ := (decode_eq_instr_iff hi lo rest left i).mp h
  refine ⟨?_, hleft⟩
  rw [encode, hword, highByte_joinBytes, lowByte_joinBytes]

/-- The word of an instruction lies in its row (R96). -/
theorem encodesInRow : ∀ i : Instr, EncodesInRow.Statement i
  | .cls => EncodesInRow.cls
  | .ret => EncodesInRow.ret
  | .jp nnn => EncodesInRow.jp nnn
  | .call nnn => EncodesInRow.call nnn
  | .seImm x kk => EncodesInRow.seImm x kk
  | .sneImm x kk => EncodesInRow.sneImm x kk
  | .seReg x y => EncodesInRow.seReg x y
  | .ldImm x kk => EncodesInRow.ldImm x kk
  | .addImm x kk => EncodesInRow.addImm x kk
  | .ldReg x y => EncodesInRow.ldReg x y
  | .orReg x y => EncodesInRow.orReg x y
  | .andReg x y => EncodesInRow.andReg x y
  | .xorReg x y => EncodesInRow.xorReg x y
  | .addReg x y => EncodesInRow.addReg x y
  | .subReg x y => EncodesInRow.subReg x y
  | .shr x y => EncodesInRow.shr x y
  | .subn x y => EncodesInRow.subn x y
  | .shl x y => EncodesInRow.shl x y
  | .sneReg x y => EncodesInRow.sneReg x y
  | .ldI nnn => EncodesInRow.ldI nnn
  | .jpV0 nnn => EncodesInRow.jpV0 nnn
  | .rnd x kk => EncodesInRow.rnd x kk
  | .drw x y n => EncodesInRow.drw x y n
  | .skp x => EncodesInRow.skp x
  | .sknp x => EncodesInRow.sknp x
  | .ldVxDt x => EncodesInRow.ldVxDt x
  | .ldVxK x => EncodesInRow.ldVxK x
  | .ldDtVx x => EncodesInRow.ldDtVx x
  | .ldStVx x => EncodesInRow.ldStVx x
  | .addI x => EncodesInRow.addI x
  | .ldF x => EncodesInRow.ldF x
  | .ldB x => EncodesInRow.ldB x
  | .storeRegs x => EncodesInRow.storeRegs x
  | .loadRegs x => EncodesInRow.loadRegs x

section Rows

/-! A word in a row is the row's fixed fields with its own others filled in: the mask keeps exactly the fixed fields, format
by format (R93, R96). -/

variable {w : Word} {c n : Nibble} {kk : Byte}

theorem wordA_of_row (h : w &&& 0xF000 = wordA c 0) : wordA c (fieldNNN w) = w := by
  have hfixed : wordA (opClass w) 0 = wordA c 0 := by rw [← h, ← wordA_mask _ (fieldNNN w), wordA_of_fields rfl]
  exact wordA_of_fields (by simpa using congrArg opClass hfixed)

theorem wordXK_of_row (h : w &&& 0xF000 = wordXK c 0 0) : wordXK c (fieldX w) (fieldKK w) = w := by
  have hfixed : wordXK (opClass w) 0 0 = wordXK c 0 0 := by
    rw [← h, ← wordXK_mask _ (fieldX w) (fieldKK w), wordXK_of_fields rfl rfl]
  exact wordXK_of_fields (by simpa using congrArg opClass hfixed) rfl

theorem wordXS_of_row (h : w &&& 0xF0FF = wordXK c 0 kk) : wordXK c (fieldX w) kk = w := by
  have hfixed : wordXK (opClass w) 0 (fieldKK w) = wordXK c 0 kk := by
    rw [← h, ← wordXS_mask _ (fieldX w), wordXK_of_fields rfl rfl]
  exact wordXK_of_fields (by simpa using congrArg opClass hfixed) (by simpa using congrArg fieldKK hfixed)

theorem wordXY_of_row (h : w &&& 0xF00F = wordXYN c 0 0 n) : wordXYN c (fieldX w) (fieldY w) n = w := by
  have hfixed : wordXYN (opClass w) 0 0 (fieldN w) = wordXYN c 0 0 n := by
    rw [← h, ← wordXY_mask _ (fieldX w) (fieldY w), wordXYN_of_fields rfl rfl]
  exact wordXYN_of_fields (by simpa using congrArg opClass hfixed) (by simpa using congrArg fieldN hfixed)

theorem wordXYN_of_row (h : w &&& 0xF000 = wordXYN c 0 0 0) : wordXYN c (fieldX w) (fieldY w) (fieldN w) = w := by
  have hfixed : wordXYN (opClass w) 0 0 0 = wordXYN c 0 0 0 := by
    rw [← h, ← wordXYN_mask _ (fieldX w) (fieldY w) (fieldN w), wordXYN_of_fields rfl rfl]
  exact wordXYN_of_fields (by simpa using congrArg opClass hfixed) rfl

end Rows

/-- An instruction with its operands taken from the fields of `w` (R93), so that it stays in its row of R96. -/
def withFieldsOf (w : Word) : Instr → Instr
  | .cls => .cls
  | .ret => .ret
  | .jp _ => .jp (fieldNNN w)
  | .call _ => .call (fieldNNN w)
  | .seImm _ _ => .seImm (fieldX w) (fieldKK w)
  | .sneImm _ _ => .sneImm (fieldX w) (fieldKK w)
  | .seReg _ _ => .seReg (fieldX w) (fieldY w)
  | .ldImm _ _ => .ldImm (fieldX w) (fieldKK w)
  | .addImm _ _ => .addImm (fieldX w) (fieldKK w)
  | .ldReg _ _ => .ldReg (fieldX w) (fieldY w)
  | .orReg _ _ => .orReg (fieldX w) (fieldY w)
  | .andReg _ _ => .andReg (fieldX w) (fieldY w)
  | .xorReg _ _ => .xorReg (fieldX w) (fieldY w)
  | .addReg _ _ => .addReg (fieldX w) (fieldY w)
  | .subReg _ _ => .subReg (fieldX w) (fieldY w)
  | .shr _ _ => .shr (fieldX w) (fieldY w)
  | .subn _ _ => .subn (fieldX w) (fieldY w)
  | .shl _ _ => .shl (fieldX w) (fieldY w)
  | .sneReg _ _ => .sneReg (fieldX w) (fieldY w)
  | .ldI _ => .ldI (fieldNNN w)
  | .jpV0 _ => .jpV0 (fieldNNN w)
  | .rnd _ _ => .rnd (fieldX w) (fieldKK w)
  | .drw _ _ _ => .drw (fieldX w) (fieldY w) (fieldN w)
  | .skp _ => .skp (fieldX w)
  | .sknp _ => .sknp (fieldX w)
  | .ldVxDt _ => .ldVxDt (fieldX w)
  | .ldVxK _ => .ldVxK (fieldX w)
  | .ldDtVx _ => .ldDtVx (fieldX w)
  | .ldStVx _ => .ldStVx (fieldX w)
  | .addI _ => .addI (fieldX w)
  | .ldF _ => .ldF (fieldX w)
  | .ldB _ => .ldB (fieldX w)
  | .storeRegs _ => .storeRegs (fieldX w)
  | .loadRegs _ => .loadRegs (fieldX w)

theorem tableRow_withFieldsOf (w : Word) (j : Instr) : tableRow (withFieldsOf w j) = tableRow j := by
  cases j <;> rfl

/-- A word that meets the match and mask of a row is an instruction of it (R96). -/
theorem encodeWord_withFieldsOf {w : Word} {j : Instr} (h : w &&& (tableRow j).2 = (tableRow j).1) :
    encodeWord (withFieldsOf w j) = w := by
  cases j
  case cls | ret => exact h.symm.trans (BitVec.and_allOnes (x := w))
  case jp | call | ldI | jpV0 => exact wordA_of_row h
  case seImm | sneImm | ldImm | addImm | rnd => exact wordXK_of_row h
  case seReg | ldReg | orReg | andReg | xorReg | addReg | subReg | shr | subn | shl | sneReg => exact wordXY_of_row h
  case drw => exact wordXYN_of_row h
  case skp | sknp | ldVxDt | ldVxK | ldDtVx | ldStVx | addI | ldF | ldB | storeRegs | loadRegs => exact wordXS_of_row h

/-- Settles O3: what the word decodes to encodes in its row; a word in the row of `j` is `j` with the word's own fields. -/
theorem rowMatchesExactly : Obligations.RowMatchesExactly := by
  unfold Obligations.RowMatchesExactly
  intro w j
  constructor
  · rintro ⟨i, hdecode, hrow⟩
    rw [← hrow, ← encodeWord_of_decodeWord hdecode]
    exact encodesInRow i
  · intro hmatch
    exact ⟨withFieldsOf w j, (decodeWord_eq_some_iff _ _).mpr (encodeWord_withFieldsOf hmatch), tableRow_withFieldsOf w j⟩

/-- The table of R98 by the fields of the word. -/
theorem unrecognizedWord_toNat_iff (w : Word) :
    unrecognizedWord w.toNat ↔
      (opClass w = 0x0 ∧ w ≠ 0x00E0 ∧ w ≠ 0x00EE) ∨
      (opClass w = 0x5 ∧ fieldN w ≠ 0) ∨
      (opClass w = 0x8 ∧ decodeAlu (fieldX w) (fieldY w) (fieldN w).toNat = none) ∨
      (opClass w = 0x9 ∧ fieldN w ≠ 0) ∨
      (opClass w = 0xE ∧ decodeKey (fieldX w) (fieldKK w).toNat = none) ∨
      (opClass w = 0xF ∧ decodeMisc (fieldX w) (fieldKK w).toNat = none) := by
  rw [decodeAlu_eq_none_iff, decodeKey_eq_none_iff, decodeMisc_eq_none_iff]
  simp only [unrecognizedWord, ne_eq, ← BitVec.toNat_inj, toNat_opClass, toNat_fieldN, toNat_fieldKK]
  rfl

/-- Class 0 has the two words of `CLS` and `RET` and no other (R98). -/
theorem decodeWord_eq_none_iff_of_class0 {w : Word} (h : opClass w = 0x0) :
    decodeWord w = none ↔ w ≠ 0x00E0 ∧ w ≠ 0x00EE := by
  rw [decodeWord_class0 h]
  split
  · next hcls => exact ⟨nofun, fun hw => absurd hcls hw.1⟩
  · next hcls =>
    split
    · next hret => exact ⟨nofun, fun hw => absurd hret hw.2⟩
    · next hret => exact ⟨fun _ => ⟨hcls, hret⟩, fun _ => rfl⟩

/-- The words that are no instruction, class by class (R98). -/
theorem decodeWord_eq_none_iff (w : Word) : decodeWord w = none ↔ unrecognizedWord w.toNat := by
  rw [unrecognizedWord_toNat_iff]
  rcases nibble_cases (opClass w) with
    hc | hc | hc | hc | hc | hc | hc | hc | hc | hc | hc | hc | hc | hc | hc | hc
  · simp [decodeWord_eq_none_iff_of_class0 hc, hc]
  · simp [decodeWord_class1 hc, hc]
  · simp [decodeWord_class2 hc, hc]
  · simp [decodeWord_class3 hc, hc]
  · simp [decodeWord_class4 hc, hc]
  · simp [decodeWord_class5 hc, hc]
  · simp [decodeWord_class6 hc, hc]
  · simp [decodeWord_class7 hc, hc]
  · simp [decodeWord_class8 hc, hc]
  · simp [decodeWord_class9 hc, hc]
  · simp [decodeWord_classA hc, hc]
  · simp [decodeWord_classB hc, hc]
  · simp [decodeWord_classC hc, hc]
  · simp [decodeWord_classD hc, hc]
  · simp [decodeWord_classE hc, hc]
  · simp [decodeWord_classF hc, hc]

/-- Settles O4, by the arms of the decoder. -/
theorem unrecognizedWords : Obligations.UnrecognizedWords := by
  unfold Obligations.UnrecognizedWords
  exact decodeWord_eq_none_iff

/-- A fetched word that is no instruction is `UnrecognizedOpcode` (R98, R259). -/
theorem fetchExecute_of_decodeWord_none {s : State} {w : Word} (hfetch : s.fetch = some w) (h : decodeWord w = none) :
    fetchExecute s = fatal .unrecognizedOpcode s := by
  simp only [fetchExecute, hfetch, h]

/-- Settles O8: the engine's turn raises `UnrecognizedOpcode` after the turn and the mark are written. -/
theorem unrecognizedWordIsFatal : Obligations.UnrecognizedWordIsFatal := by
  unfold Obligations.UnrecognizedWordIsFatal
  intro s rest hmoves hrun hpc hword
  rw [← toNat_joinBytes, ← decodeWord_eq_none_iff] at hword
  have hfetch : ({ s with agenda := rest, executing := true } : State).fetch =
      some (joinBytes (s.mem.read s.pc.toNat) (s.mem.read (s.pc.toNat + 1))) :=
    (State.fetch_eq_some_iff _ _).mpr ⟨hpc, rfl⟩
  have hstep : step s = fatal .unrecognizedOpcode { s with agenda := rest, executing := true } :=
    (step_of_running hmoves hrun).trans (fetchExecute_of_decodeWord_none hfetch hword)
  have hframe := ((frame_agenda s rest).trans (frame_executing _ true)).trans (frame_raise _ .unrecognizedOpcode)
  exact ⟨_, hstep, rfl, rfl, rfl, hframe.mono (by decide)⟩

end Sys2Proof.Machine
end

section
/-! PROOFS. What an engine turn and an executed instruction always answer (spec/40_cycle.md R121): the halted engine, the
hold in `Fx0A`, the jump to its own address. -/

namespace Sys2Proof.Machine

/-- Settles O10: an instruction takes its fatal condition, a next state, or completes. -/
theorem everyInstructionAnswersNext : Obligations.EveryInstructionAnswersNext := by
  unfold Obligations.EveryInstructionAnswersNext
  intro i s
  cases hc : fatalCondition i s with
  | none => exact ⟨effect i s, exec_of_fatalCondition_none hc⟩
  | some c => exact ⟨s.raise c, exec_of_fatalCondition_some hc⟩

theorem engineTurn_of_halted {s : State} (h : s.halt = true) : engineTurn s = .fault (.halted s.cause) := if_pos h

/-- Settles O9: the turn the engine takes is the fault. -/
theorem haltedEngineHasNoStep : Obligations.HaltedEngineHasNoStep := by
  unfold Obligations.HaltedEngineHasNoStep
  intro s rest hmoves hhalt
  exact (step_of_engineMoves hmoves).trans (engineTurn_of_halted (s := { s with agenda := rest }) hhalt)

/-- A running engine executes the instruction at `PC`, with the turn used up and marked as executing (log 3, log 10). -/
theorem step_of_current {s : State} {rest : List Turn} {i : Instr} (hmoves : s.EngineMoves rest) (hrun : s.halt = false)
    (hcurrent : s.current = some i) : step s = exec i { s with agenda := rest, executing := true } :=
  (step_of_running hmoves hrun).trans (fetchExecute_of_current_some hcurrent)

theorem toNat_addrWord (nnn : Addr) : (addrWord nnn).toNat = nnn.toNat :=
  BitVec.toNat_setWidth_of_le (by decide)

/-- Settles O17: the transfer writes the value `PC` has. -/
theorem jumpToItselfRepeats : Obligations.JumpToItselfRepeats := by
  unfold Obligations.JumpToItselfRepeats
  intro s nnn hagenda hrun hcurrent hself
  have htarget : addrWord nnn = s.pc := BitVec.eq_of_toNat_eq ((toNat_addrWord nnn).trans hself)
  have hstep : step s = .next { s with executing := true } := by
    rw [step_of_current (.inr ⟨hagenda, rfl⟩) hrun hcurrent, exec, execJp, htarget, ← hagenda]
    rfl
  exact ⟨_, hstep, frame_executing s true⟩

/-- Settles O41: the `Fx0A` at `PC` has no effect without a report. -/
theorem holdingEngineWaits : Obligations.HoldingEngineWaits := by
  unfold Obligations.HoldingEngineWaits
  intro s rest hmoves hholding
  obtain ⟨hrun, hreport, x, hcurrent⟩ := s.holding_iff.mp hholding
  have hstep : step s = .next { s with agenda := rest, executing := true } := by
    rw [step_of_current hmoves hrun hcurrent, exec_of_fatalCondition_none rfl]
    exact congrArg _ (effect_ldVxK_of_hold (s := { s with agenda := rest, executing := true }) x hreport)
  exact ⟨_, hstep, rfl, (frame_agenda s rest).trans (frame_executing _ true)⟩

end Sys2Proof.Machine
end

section
/-! PROOFS. The skips (spec/41_flow.md R144 to R147) and the load of `I` (spec/43_index_memory.md R190). -/

namespace Sys2Proof.Machine

/-- A skip's `PC` write, modulo 65536 (spec/40_cycle.md R122, decision D5). -/
theorem toNat_skipIf_pc (s : State) (c : Bool) :
    (s.skipIf c).pc.toNat = (s.pc.toNat + if c then 4 else 2) % 0x10000 := by
  cases c with
  | false => exact BitVec.toNat_add s.pc 2
  | true => exact BitVec.toNat_add s.pc 4

theorem skipsIf_of_exec {i : Instr} {s : State} {b c : Bool} (h : exec i s = .next (s.skipIf b)) (hbc : b = c) :
    SkipsIf c i s := by
  subst hbc
  exact ⟨_, h, toNat_skipIf_pc s b, frame_skipIf s b⟩

/-- Settles O16: each of the four is a skip on its comparison. -/
theorem skipResults : Obligations.SkipResults := by
  unfold Obligations.SkipResults
  intro x y kk s
  exact ⟨skipsIf_of_exec rfl (Bool.beq_eq_decide_eq _ _), skipsIf_of_exec rfl decide_not.symm,
    skipsIf_of_exec rfl (Bool.beq_eq_decide_eq _ _), skipsIf_of_exec rfl decide_not.symm⟩

/-- Settles O24: the immediate is zero-extended into `I`. -/
theorem loadIndexResult : Obligations.LoadIndexResult := by
  unfold Obligations.LoadIndexResult
  intro nnn s
  exact ⟨_, exec_of_fatalCondition_none rfl, toNat_addrWord nnn, advanced_advance _, effect_frame (.ldI nnn) s⟩

end Sys2Proof.Machine
end

section
/-! PROOFS. The results of load, arithmetic and shift instructions (spec/42_alu.md R160 to R170): what a write of one
register, and a write of a register and the flag, leave in the registers, and the bytes written as numbers. -/

namespace Sys2Proof.Machine

section Writes

variable {i : Instr} {x : Nibble} {s : State} {r : Byte}

/-- An instruction that writes one register and advances. -/
theorem writes_of_exec {value : Nat} (h : exec i s = .next (s.setReg x r).advance) (hvalue : r.toNat = value) :
    Writes i x value s := by
  refine ⟨_, h, ?result, fun y hy => ?others, advanced_advance _, (frame_setReg s x r).trans (frame_advance _)⟩
  case result => rw [State.reg_advance, State.reg_setReg, if_pos rfl, hvalue]
  case others => rw [State.reg_advance, State.reg_setReg, if_neg (List.ne_of_not_mem_cons hy)]

theorem toNat_flagByte (b : Bool) : (flagByte b).toNat = b.toNat := by cases b <;> rfl

/-- An instruction that writes one register, then the flag, and advances (spec/40_cycle.md R124). -/
theorem writesWithFlag_of_exec {b : Bool} {value flag : Nat}
    (h : exec i s = .next (s.setWithFlag x r (flagByte b)).advance) (hvalue : r.toNat = value) (hflag : b.toNat = flag) :
    WritesWithFlag i x value flag s := by
  refine ⟨_, h, fun hx => ?result, ?flag, fun y hy => ?others, advanced_advance _,
    (frame_setWithFlag s x r _).trans (frame_advance _)⟩
  case result => rw [State.reg_advance, State.reg_setWithFlag, if_neg hx, if_pos rfl, hvalue]
  case flag => rw [State.reg_advance, State.reg_setWithFlag, if_pos rfl, toNat_flagByte, hflag]
  case others =>
    simp only [List.mem_cons, List.not_mem_nil, or_false, not_or] at hy
    obtain ⟨hx, hvf⟩ := hy
    rw [State.reg_advance, State.reg_setWithFlag, if_neg hvf, if_neg hx]

end Writes

/-- Settles O18: each writes one register. -/
theorem loadAndAddResults : Obligations.LoadAndAddResults := by
  unfold Obligations.LoadAndAddResults
  intro x y kk s
  exact ⟨writes_of_exec rfl rfl, writes_of_exec rfl (BitVec.toNat_add _ _), writes_of_exec rfl rfl⟩

section ByteValues

variable (a b : Byte)

/-- The carry of an addition (spec/42_alu.md R166). -/
theorem toNat_carry : (carry a b).toNat = if a.toNat + b.toNat > 255 then 1 else 0 := Bool.cond_decide _ 1 0

/-- The flag of a subtraction is strict (spec/42_alu.md R167, R169, decision D11). -/
theorem toNat_greater : (greater a b).toNat = if a.toNat > b.toNat then 1 else 0 := Bool.cond_decide _ 1 0

/-- The wrapped difference (spec/42_alu.md R167, R169). -/
theorem toNat_byte_sub : (a - b).toNat = (a.toNat + 256 - b.toNat) % 256 := by bv_omega

theorem toNat_lowBit : (lowBit a).toNat = a.toNat % 2 :=
  (Nat.toNat_testBit a.toNat 0).trans (congrArg (· % 2) (Nat.div_one _))

theorem toNat_highBit : (highBit a).toNat = a.toNat / 128 := by
  have hlt := a.isLt
  have hbit : (highBit a).toNat = a.toNat / 128 % 2 := Nat.toNat_testBit a.toNat 7
  omega

theorem toNat_byte_shiftRight_one : (a >>> 1).toNat = a.toNat / 2 := Nat.shiftRight_eq_div_pow a.toNat 1

theorem toNat_byte_shiftLeft_one : (a <<< 1).toNat = a.toNat * 2 % 256 :=
  (BitVec.toNat_shiftLeft ..).trans (congrArg (· % 256) (Nat.shiftLeft_eq a.toNat 1))

end ByteValues

/-- Settles O20: the sum with its carry. -/
theorem addResult : Obligations.AddResult := by
  unfold Obligations.AddResult
  intro x y s
  exact writesWithFlag_of_exec rfl (BitVec.toNat_add _ _) (toNat_carry _ _)

/-- Settles O21: the difference with its comparison, the operands exchanged for SUBN. -/
theorem subtractResults : Obligations.SubtractResults := by
  unfold Obligations.SubtractResults
  intro x y s
  exact ⟨writesWithFlag_of_exec rfl (toNat_byte_sub _ _) (toNat_greater _ _),
    writesWithFlag_of_exec rfl (toNat_byte_sub _ _) (toNat_greater _ _)⟩

/-- The shifted byte for each setting of `SHIFT_SRC` (spec/42_alu.md R168, R170, decision D9). -/
theorem State.shiftSource_eq (s : State) (x y : Nibble) :
    s.shiftSource x y = if s.params.shiftSrc = .vx then s.reg x else s.reg y := by
  unfold State.shiftSource
  cases s.params.shiftSrc <;> rfl

/-- Settles O22: the shifted byte is the one `SHIFT_SRC` selects. -/
theorem shiftResults : Obligations.ShiftResults := by
  unfold Obligations.ShiftResults
  intro x y q s hq
  rw [← State.shiftSource_eq] at hq
  subst hq
  exact ⟨writesWithFlag_of_exec rfl (toNat_byte_shiftRight_one _) (toNat_lowBit _),
    writesWithFlag_of_exec rfl (toNat_byte_shiftLeft_one _) (toNat_highBit _)⟩

end Sys2Proof.Machine
end

section
/-! PROOFS. The transfers (spec/41_flow.md R140 to R143): the two jumps, CALL and RET with room or an entry on the stack and
without, and a CALL whose target is a RET. -/

namespace Sys2Proof.Machine

/-- Settles O11: the immediate is zero-extended into `PC`. -/
theorem jumpResult : Obligations.JumpResult := by
  unfold Obligations.JumpResult
  intro nnn s
  exact ⟨_, exec_of_fatalCondition_none rfl, toNat_addrWord nnn, effect_frame (.jp nnn) s⟩

/-- The sum of an address and a byte does not wrap at 16 bits (spec/41_flow.md R143, decision D30). -/
theorem toNat_addrWord_add_byteWord (nnn : Addr) (b : Byte) :
    (addrWord nnn + byteWord b).toNat = nnn.toNat + b.toNat := by
  have hb : (byteWord b).toNat = b.toNat := BitVec.toNat_setWidth_of_le (by decide)
  rw [BitVec.toNat_add_of_lt (by rw [toNat_addrWord, hb]; omega), toNat_addrWord, hb]

/-- Settles O12: the sum goes to `PC` as it is. -/
theorem jumpOffsetResult : Obligations.JumpOffsetResult := by
  unfold Obligations.JumpOffsetResult
  intro nnn s
  exact ⟨_, exec_of_fatalCondition_none rfl, toNat_addrWord_add_byteWord nnn _, effect_frame (.jpV0 nnn) s⟩

section Stack

variable {s : State}

/-- CALL with room on the stack (spec/41_flow.md R142). -/
theorem exec_call_of_room (nnn : Addr) (h : s.sp.val < 16) :
    exec (.call nnn) s = .next ((s.push (s.pc + 2) h).jump (addrWord nnn)) := dif_pos h

/-- RET with an entry on the stack (spec/41_flow.md R140). -/
theorem exec_ret_of_live (h : 0 < s.sp.val) : exec .ret s = .next (s.drop.jump s.top) := if_neg (Nat.ne_of_gt h)

theorem fatalCondition_call_of_full (nnn : Addr) (h : s.sp.val = 16) :
    fatalCondition (.call nnn) s = some .stackOverflow := if_neg (by omega)

theorem fatalCondition_ret_of_empty (h : s.sp.val = 0) : fatalCondition .ret s = some .stackUnderflow := if_pos h

variable (a : Word) (h : s.sp.val < 16)

/-- The entry a push writes. -/
theorem State.getElem_push_stack_self : (s.push a h).stack[s.sp.val] = a := Vector.getElem_set_self _

/-- Every other entry stays. -/
theorem State.getElem_push_stack_of_ne {k : Fin 16} (hk : k.val ≠ s.sp.val) : (s.push a h).stack[k] = s.stack[k] :=
  Vector.getElem_set_ne h k.isLt hk.symm

theorem State.top_push : (s.push a h).top = a := s.getElem_push_stack_self a h

end Stack

theorem frame_stack (s : State) (stack : Vector Word 16) : Frame [.stack] s { s with stack := stack } := by
  intro p hp
  cases p <;> simp_all [Part.Same, State.reg]

/-- Settles O13: the push and the transfer with room, the fatal condition without. -/
theorem callResult : Obligations.CallResult := by
  unfold Obligations.CallResult
  intro nnn s
  refine ⟨fun hroom => ?room, fun hfull => ?full⟩
  case room =>
    have hframe := (frame_push s (s.pc + 2) hroom).trans (frame_jump _ (addrWord nnn))
    have hentry : (s.push (s.pc + 2) hroom).stack[s.sp.val].toNat = (s.pc.toNat + 2) % 0x10000 := by
      rw [State.getElem_push_stack_self]
      exact BitVec.toNat_add s.pc 2
    exact ⟨_, exec_call_of_room nnn hroom, toNat_addrWord nnn, rfl, hentry,
      fun k hk => s.getElem_push_stack_of_ne _ hroom hk, hframe.mono (by decide)⟩
  case full => exact raises_of_fatalCondition s (fatalCondition_call_of_full nnn hfull)

/-- Settles O14: the pop and the transfer with an entry, the fatal condition without. -/
theorem returnResult : Obligations.ReturnResult := by
  unfold Obligations.ReturnResult
  intro s
  refine ⟨fun hlive => ?live, fun hempty => ?empty⟩
  case live =>
    have hframe := (frame_drop s).trans (frame_jump _ s.top)
    exact ⟨_, exec_ret_of_live hlive, rfl, Nat.sub_add_cancel hlive, hframe.mono (by decide)⟩
  case empty => exact raises_of_fatalCondition s (fatalCondition_ret_of_empty hempty)

/-- With no turn named before it a running engine executes the instruction at `PC` (log 3, log 10). -/
theorem step_of_agenda_nil {s : State} {i : Instr} (hagenda : s.agenda = []) (hrun : s.halt = false)
    (hcurrent : s.current = some i) : step s = exec i { s with executing := true } := by
  rw [step_of_current (.inr ⟨hagenda, rfl⟩) hrun hcurrent, ← hagenda]

/-- The bytes 00 EE at `PC` are a RET. -/
theorem State.current_eq_ret {s : State} {a : Nat} (hpc : s.pc.toNat = a) (ha : a ≤ 0xFFE) (hhi : s.mem.read a = 0x00)
    (hlo : s.mem.read (a + 1) = 0xEE) : s.current = some .ret := by
  subst hpc
  rw [State.current_eq_some_iff, hhi, hlo]
  exact ⟨by omega, rfl⟩

/-- A push and a transfer, undone by RET: `PC` is the address pushed, and the depth of the stack is as before. -/
theorem exec_ret_push_jump {s : State} (a b : Word) (h : s.sp.val < 16) :
    exec .ret ((s.push a h).jump b) = .next ({ s with stack := (s.push a h).stack }.jump a) := by
  rw [exec_ret_of_live (Nat.succ_pos _)]
  have htop : ((s.push a h).jump b).top = a := s.top_push a h
  rw [htop]
  rfl

/-- The step at the target of a transfer after a push, when 00 EE stands there. -/
theorem step_ret_push_jump {s : State} {nnn : Addr} (a : Word) (h : s.sp.val < 16) (hagenda : s.agenda = [])
    (hrun : s.halt = false) (htarget : nnn.toNat ≤ 0xFFE) (hhi : s.mem.read nnn.toNat = 0x00)
    (hlo : s.mem.read (nnn.toNat + 1) = 0xEE) :
    step ((s.push a h).jump (addrWord nnn)) =
      .next ({ s with stack := (s.push a h).stack, executing := true }.jump a) := by
  have hret : ((s.push a h).jump (addrWord nnn)).current = some .ret :=
    State.current_eq_ret (toNat_addrWord nnn) htarget hhi hlo
  exact (step_of_agenda_nil (s := (s.push a h).jump (addrWord nnn)) hagenda hrun hret).trans
    (exec_ret_push_jump (s := { s with executing := true }) a (addrWord nnn) h)

/-- Settles O15: the second step is the RET at the target, which takes the entry that the first one pushed. -/
theorem callThenReturn : Obligations.CallThenReturn := by
  unfold Obligations.CallThenReturn
  intro s nnn hagenda hrun hroom hcall htarget hhi hlo
  have hfirst : step s = .next (({ s with executing := true }.push (s.pc + 2) hroom).jump (addrWord nnn)) :=
    (step_of_agenda_nil hagenda hrun hcall).trans (exec_call_of_room (s := { s with executing := true }) nnn hroom)
  have hsecond := step_ret_push_jump (s := { s with executing := true }) (s.pc + 2) hroom hagenda hrun htarget hhi hlo
  have hpc : (s.pc + 2).toNat = s.pc.toNat + 2 := by
    have hfetched := State.pc_le_of_current hcall
    bv_omega
  have hframe := ((frame_executing s true).trans (frame_stack _ (s.push (s.pc + 2) hroom).stack)).trans
    (frame_jump _ (s.pc + 2))
  exact ⟨_, _, hfirst, hsecond, hpc, fun k hk => s.getElem_push_stack_of_ne _ hroom hk, hframe.mono (by decide)⟩

end Sys2Proof.Machine
end

section
/-! PROOFS. The bitwise instructions (spec/42_alu.md R163 to R165) and the random byte (spec/42_alu.md R171). -/

namespace Sys2Proof.Machine

/-- Settles O19: each writes one register. -/
theorem logicResults : Obligations.LogicResults := by
  unfold Obligations.LogicResults
  intro x y s
  exact ⟨writes_of_exec rfl (BitVec.toNat_or _ _), writes_of_exec rfl (BitVec.toNat_and _ _),
    writes_of_exec rfl (BitVec.toNat_xor _ _)⟩

/-- A masked byte has no bit outside the mask. -/
theorem masked_and_not_mask (b mask : Byte) : b &&& mask &&& ~~~mask = 0 := by
  rw [BitVec.and_assoc, BitVec.and_not_self]
  exact BitVec.and_zero

/-- RND's result (spec/42_alu.md R171, log 6). -/
theorem reg_effect_rnd (x : Nibble) (kk : Byte) (s : State) :
    (effect (.rnd x kk) s).reg x = Config.randomByte s.draws &&& kk := by
  rw [effect, State.reg_advance, State.reg_setReg, if_pos rfl]

/-- Settles O23: no fatal condition stops RND, and the free byte is masked by kk. -/
theorem randomResult : Obligations.RandomResult := by
  unfold Obligations.RandomResult
  intro x kk s
  have hmask : (effect (.rnd x kk) s).reg x &&& ~~~kk = 0 := by
    rw [reg_effect_rnd]
    exact masked_and_not_mask _ kk
  have hkept : RegsKept [x] s (effect (.rnd x kk) s) := fun y hy =>
    effect_reg_of_not_destination s (decide_eq_false (List.ne_of_not_mem_cons hy))
      (fun ⟨hsets, _⟩ => Bool.false_ne_true hsets)
  have hframe : Frame [.draws, .v, .pc] s (effect (.rnd x kk) s) := effect_frame (.rnd x kk) s
  exact ⟨_, exec_of_fatalCondition_none rfl, reg_effect_rnd x kk s, hmask, rfl, hkept, advanced_advance _,
    hframe.mono (by decide)⟩

end Sys2Proof.Machine
end

section
/-! PROOFS. The register block stored and loaded again (spec/43_index_memory.md R194, R195), the arithmetic on `I`
(spec/43_index_memory.md R191, R192), and the host turns that are not admitted (spec/43_index_memory.md R192,
spec/70_reset_and_hazards.md R294, R296; log 10, log 11, log 15). -/

namespace Sys2Proof.Machine

/-- A loaded register comes back from where it was stored (spec/43_index_memory.md R194, R195); one above `Vx` is written by
neither instruction. -/
theorem reg_effect_loadRegs_storeRegs {s : State} (hwf : s.mem.wf) (x y : Nibble) :
    (effect (.loadRegs x) (effect (.storeRegs x) s)).reg y = s.reg y := by
  rw [reg_effect_loadRegs]
  by_cases hy : y.toNat ≤ x.toNat
  · rw [if_pos (Nat.lt_succ_of_le hy)]
    exact read_effect_storeRegs hwf hy
  · rw [if_neg (by omega)]
    rfl

/-- Settles O30: the store leaves `I`, so the load is within memory too and reads the block just stored; it writes no
byte. -/
theorem storeThenLoadRestores : Obligations.StoreThenLoadRestores := by
  unfold Obligations.StoreThenLoadRestores
  intro x s hwf hbound
  have hstored : (effect (.storeRegs x) s).base + x.toNat ≤ 0xFFF := hbound
  exact ⟨_, _, exec_of_fatalCondition_none (fatalCondition_storeRegs_of_le s hbound),
    exec_of_fatalCondition_none (fatalCondition_loadRegs_of_le _ hstored), reg_effect_loadRegs_storeRegs hwf x,
    effect_frame (.loadRegs x) _ .mem (by simp [writeSet]), toNat_effect_loadRegs_i hstored⟩

theorem toNat_byteWord (b : Byte) : (byteWord b).toNat = b.toNat :=
  BitVec.toNat_setWidth_of_le (by decide)

/-- The sum wraps at 16 bits (spec/43_index_memory.md R191, decision D12). -/
theorem toNat_add_byteWord (a : Word) (b : Byte) : (a + byteWord b).toNat = (a.toNat + b.toNat) % 0x10000 := by
  rw [BitVec.toNat_add, toNat_byteWord]

/-- The address of a digit's sprite does not wrap at 16 bits, wherever the font lies (spec/43_index_memory.md R192, decision
D14). -/
theorem toNat_fontAddress (p : Params) (b : Byte) :
    (fontAddress p b).toNat = p.fontBase.toNat + 5 * (b.toNat % 16) := by
  have hbase := p.fontBase.isLt
  rw [fontAddress, BitVec.toNat_ofNat, Nat.mod_eq_of_lt (by omega)]

/-- Settles O25: both write `I` alone, a wrapped sum and an address that fits. -/
theorem indexArithmeticResults : Obligations.IndexArithmeticResults := by
  unfold Obligations.IndexArithmeticResults
  intro x s
  refine ⟨⟨_, exec_of_fatalCondition_none rfl, ?sum, advanced_advance _, effect_frame (.addI x) s⟩,
    ⟨_, exec_of_fatalCondition_none rfl, ?font, advanced_advance _, effect_frame (.ldF x) s⟩⟩
  case sum => exact toNat_add_byteWord s.i (s.reg x)
  case font => exact toNat_fontAddress s.params (s.reg x)

/-- The turn the agenda names is taken, and is used up (log 3). -/
theorem step_of_agenda_cons {s : State} {turn : Turn} {rest : List Turn} (h : s.agenda = turn :: rest) :
    step s = takeTurn turn { s with agenda := rest } := by
  simp only [step, h]

theorem loadTurn_of_executing {s : State} (program : List Byte) (h : s.executing = true) :
    loadTurn program s = .refused .loadWhileExecuting :=
  if_pos h

theorem reportKeyTurn_of_not_holding {s : State} (k : Nibble) (h : s.holding = false) :
    reportKeyTurn k s = .refused .keyReportNotAwaited :=
  if_neg (ne_true_of_eq_false h)

/-- A font that does not end at or below 0x1FF is ill-formed (spec/43_index_memory.md R192). -/
theorem powerOnTurn_of_font_out_of_range {p : Params} (s : State) (h : 0x1FF < p.fontBase.toNat + 79) :
    powerOnTurn p s = .refused .fontOutOfRange := by
  have hill : ¬ p.wellFormed = true := by
    rw [Params.wellFormed, decide_eq_true_eq]
    omega
  exact if_neg hill

/-- Settles O48: each turn is refused in every state of its case, and using up the turn in the agenda changes neither whether
the engine executes nor whether it holds. -/
theorem inadmissibleTurnsAreRefused : Obligations.InadmissibleTurnsAreRefused := by
  unfold Obligations.InadmissibleTurnsAreRefused
  intro s rest program k p
  refine ⟨fun hagenda hexecuting => ?load, fun hagenda hfree => ?reportKey, fun hagenda hfont => ?powerOn⟩
  case load =>
    exact (step_of_agenda_cons hagenda).trans (loadTurn_of_executing (s := { s with agenda := rest }) program hexecuting)
  case reportKey =>
    exact (step_of_agenda_cons hagenda).trans (reportKeyTurn_of_not_holding (s := { s with agenda := rest }) k hfree)
  case powerOn => exact (step_of_agenda_cons hagenda).trans (powerOnTurn_of_font_out_of_range _ hfont)

end Sys2Proof.Machine
end

section
/-! PROOFS. The display instructions (spec/44_display.md R210 to R214): when CLS and DRW complete, what they leave on the
display and in `VF`, what they raise with the sink gone, and the messages sent. -/

namespace Sys2Proof.Machine

/-- An instruction that leaves the engine running took no fatal condition (spec/60_exceptions.md R252). -/
theorem exec_eq_next_of_running {i : Instr} {s t : State} (h : exec i s = .next t) (hrun : t.halt = false) :
    fatalCondition i s = none ∧ t = effect i s := by
  rcases exec_eq_next h with ⟨c, -, rfl⟩ | hcompletes
  · cases hrun
  · exact hcompletes

section Conditions

/-! The fatal conditions of CLS and DRW by the sink and the bound on the sprite (spec/44_display.md R214). -/

variable {s : State}

theorem fatalCondition_cls_of_open (h : s.sinkOpen = true) : fatalCondition .cls s = none := if_pos h

theorem fatalCondition_cls_of_closed (h : s.sinkOpen = false) : fatalCondition .cls s = some .outputSendFailure :=
  if_neg (ne_true_of_eq_false h)

/-- A DRW whose sprite has no row or lies in memory stops only where a CLS does (decision D16). -/
theorem fatalCondition_drw_eq_cls (x y : Nibble) {n : Nibble} (h : n.toNat = 0 ∨ s.base + n.toNat - 1 ≤ 0xFFF) :
    fatalCondition (.drw x y n) s = fatalCondition .cls s := by
  refine if_neg fun ⟨hne, hlt⟩ => ?_
  rcases h with hzero | hle
  · exact hne (BitVec.eq_of_toNat_eq hzero)
  · exact Nat.not_lt.mpr hle hlt

end Conditions

/-- Settles O32: the effect of CLS, whose display is `Display.blank`. -/
theorem clearResult : Obligations.ClearResult := by
  unfold Obligations.ClearResult
  intro s hopen
  exact ⟨_, exec_of_fatalCondition_none (fatalCondition_cls_of_open hopen), Display.pixel_blank, rfl, advanced_advance _,
    effect_frame .cls s⟩

/-- Settles O36: both have `OutputSendFailure` as their fatal condition there. -/
theorem sendFailureIsFatal : Obligations.SendFailureIsFatal := by
  unfold Obligations.SendFailureIsFatal
  intro x y n s hclosed
  have hcls : fatalCondition .cls s = some .outputSendFailure := fatalCondition_cls_of_closed hclosed
  exact ⟨raises_of_fatalCondition s hcls,
    fun hbound => raises_of_fatalCondition s ((fatalCondition_drw_eq_cls x y hbound).trans hcls)⟩

section Draw

/-- The bit that `Dxyn` in `s` lays on the pixel of row `r` and column `c` (spec/44_display.md R211). -/
abbrev State.spriteBitAt (s : State) (x y n : Nibble) (r : Fin 32) (c : Fin 64) : Bool :=
  spriteBit s.mem s.base (s.reg x).toNat (s.reg y).toNat n.toNat r c

variable (x y n : Nibble) (s : State)

/-- Each pixel is XORed with its sprite bit (spec/44_display.md R211, decision D15). -/
theorem pixel_effect_drw (r : Fin 32) (c : Fin 64) :
    (effect (.drw x y n) s).disp.pixel r c = (s.disp.pixel r c ^^ s.spriteBitAt x y n r c) :=
  drawSprite_pixel _ _ _ _ _ _ (by omega) r c

/-- `VF` reports that a set pixel met a set sprite bit (spec/44_display.md R212). -/
theorem reg_vf_effect_drw_eq_one_iff :
    (effect (.drw x y n) s).reg vf = 1 ↔ ∃ r c, s.disp.pixel r c = true ∧ s.spriteBitAt x y n r c = true := by
  rw [effect, State.reg_paint, if_pos rfl, flagByte_eq_one_iff, State.sprite, drawSprite_collision _ _ _ _ _ _ (by omega)]
  exact or_iff_right Bool.false_ne_true

/-- `VF` is a flag (spec/10_state.md R21). -/
theorem reg_vf_effect_drw_eq_zero_or_one :
    (effect (.drw x y n) s).reg vf = 0 ∨ (effect (.drw x y n) s).reg vf = 1 := by
  rw [effect, State.reg_paint, if_pos rfl]
  exact flagByte_eq_zero_or_one _

/-- A set pixel is erased exactly where a set sprite bit meets it (spec/44_display.md R212). -/
theorem pixel_effect_drw_eq_false_iff {r : Fin 32} {c : Fin 64} (h : s.disp.pixel r c = true) :
    (effect (.drw x y n) s).disp.pixel r c = false ↔ s.spriteBitAt x y n r c = true := by
  rw [pixel_effect_drw, h, Bool.true_xor, Bool.not_eq_false']

variable {x y s}

/-- A DRW changes neither memory nor `I`, so the same coordinates lay the same bits. -/
theorem spriteBitAt_effect_drw (hx : (effect (.drw x y n) s).reg x = s.reg x)
    (hy : (effect (.drw x y n) s).reg y = s.reg y) (r : Fin 32) (c : Fin 64) :
    (effect (.drw x y n) s).spriteBitAt x y n r c = s.spriteBitAt x y n r c := by
  rw [State.spriteBitAt, hx, hy]
  rfl

end Draw

/-- Settles O33: the effect of DRW, pixel by pixel. -/
theorem drawResult : Obligations.DrawResult := by
  unfold Obligations.DrawResult
  intro x y n s hopen hbound
  have hnone : fatalCondition (.drw x y n) s = none :=
    (fatalCondition_drw_eq_cls x y hbound).trans (fatalCondition_cls_of_open hopen)
  have hkept : RegsKept [vf] s (effect (.drw x y n) s) := fun z hz =>
    (s.reg_paint _ z).trans (if_neg (List.ne_of_not_mem_cons hz))
  exact ⟨_, exec_of_fatalCondition_none hnone, pixel_effect_drw x y n s, rfl, hkept, advanced_advance _,
    (effect_frame (.drw x y n) s).mono (by simp [writeSet])⟩

/-- Settles O34: where a set pixel is erased, the sprite bit is set, and the other way round. -/
theorem drawCollision : Obligations.DrawCollision := by
  unfold Obligations.DrawCollision
  intro x y n s t h hrun
  obtain ⟨-, rfl⟩ := exec_eq_next_of_running h hrun
  refine ⟨fun ⟨r, c, hset, herased⟩ => ?erased, fun hkept => ?kept⟩
  case erased =>
    exact (reg_vf_effect_drw_eq_one_iff x y n s).mpr ⟨r, c, hset, (pixel_effect_drw_eq_false_iff x y n s hset).mp herased⟩
  case kept =>
    refine (reg_vf_effect_drw_eq_zero_or_one x y n s).resolve_right fun hone => ?_
    obtain ⟨r, c, hset, hbit⟩ := (reg_vf_effect_drw_eq_one_iff x y n s).mp hone
    have herased := (pixel_effect_drw_eq_false_iff x y n s hset).mpr hbit
    exact absurd (hkept r c hset) (ne_true_of_eq_false herased)

/-- Settles O35: the first draw leaves memory, `I` and the sink, so the second completes and lays the same bits; XORing a bit
twice restores the pixel, and the second XOR erases where the first has set. -/
theorem drawTwiceRestores : Obligations.DrawTwiceRestores := by
  unfold Obligations.DrawTwiceRestores
  intro x y n s t h hrun hx hy
  obtain ⟨hnone, rfl⟩ := exec_eq_next_of_running h hrun
  have hnone' : fatalCondition (.drw x y n) (effect (.drw x y n) s) = none := hnone
  have hbits := spriteBitAt_effect_drw n hx hy
  refine ⟨_, exec_of_fatalCondition_none hnone', fun r c => ?restored, ?collision⟩
  case restored => rw [pixel_effect_drw, hbits, pixel_effect_drw, Bool.xor_assoc, Bool.xor_self, Bool.xor_false]
  case collision =>
    rw [reg_vf_effect_drw_eq_one_iff]
    refine exists_congr fun r => exists_congr fun c => ?_
    rw [hbits, pixel_effect_drw, and_congr_left_iff]
    intro hbit
    rw [hbit, Bool.xor_true, Bool.not_eq_true']

/-- Settles O60: an instruction that completes sends its messages, and the other actions do not write the Output channel. -/
theorem messagesSent : Obligations.MessagesSent := by
  unfold Obligations.MessagesSent
  refine ⟨fun i s t h hrun => ?instruction, fun s program => ⟨rfl, rfl, ?load⟩⟩
  case instruction =>
    obtain ⟨-, rfl⟩ := exec_eq_next_of_running h hrun
    exact effect_out i s
  case load =>
    obtain ⟨-, hout, -⟩ := s.load_keeps program
    exact hout

end Sys2Proof.Machine
end

section
/-! PROOFS. The sink under every turn (spec/44_display.md R214), and the host's turns that close it and set a key
(spec/70_reset_and_hazards.md R296). -/

namespace Sys2Proof.Machine

section Sink

variable {s t : State}

/-- No instruction writes the sink. -/
theorem effect_sinkOpen (i : Instr) (s : State) : (effect i s).sinkOpen = s.sinkOpen :=
  effect_frame i s .sinkOpen fun hmem => absurd (writeSet_subset i hmem) (by decide)

theorem engineTurn_sinkOpen (h : engineTurn s = .next t) : t.sinkOpen = s.sinkOpen := by
  rcases fetchExecute_eq_next (engineTurn_eq_next h).2 with ⟨c, -, rfl⟩ | ⟨i, -, -, rfl⟩
  · rfl
  · exact effect_sinkOpen i _

theorem State.load_sinkOpen (program : List Byte) (s : State) : (s.load program).sinkOpen = s.sinkOpen := by
  rcases s.load_cases program with ⟨-, h⟩ | ⟨-, h⟩ | ⟨-, h⟩ <;> simp [h]

/-- Of the turns only a power-on opens a sink. -/
theorem takeTurn_sinkOpen_of_closed {turn : Turn} (h : takeTurn turn s = .next t) (hp : ∀ p, turn ≠ .powerOn p)
    (hclosed : s.sinkOpen = false) : t.sinkOpen = false := by
  cases turn with
  | engine => exact (engineTurn_sinkOpen h).trans hclosed
  | reportKey k => exact (engineTurn_sinkOpen (reportKeyTurn_eq_next h).2).trans hclosed
  | powerOn p => exact absurd rfl (hp p)
  | load program =>
    obtain ⟨-, rfl⟩ := loadTurn_eq_next h
    exact (s.load_sinkOpen program).trans hclosed
  | closeSink =>
    cases h
    rfl
  | tick | warmReset | setKey | consumeOutput | readPorts =>
    cases h
    exact hclosed

theorem step_sinkOpen_of_closed (h : step s = .next t) (hp : ¬ s.PowersOn) (hclosed : s.sinkOpen = false) :
    t.sinkOpen = false := by
  rcases step_cases s with ⟨-, heq⟩ | ⟨turn, rest, hagenda, heq⟩
  · exact (engineTurn_sinkOpen (heq.symm.trans h)).trans hclosed
  · have hturn (p : Params) : turn ≠ .powerOn p := by
      rintro rfl
      exact hp ⟨p, rest, hagenda⟩
    exact takeTurn_sinkOpen_of_closed (s := { s with agenda := rest }) (heq.symm.trans h) hturn hclosed

end Sink

theorem frame_closeSink (s : State) : Frame [.sinkOpen] s s.closeSink := by
  intro p hp
  cases p <;> simp_all [Part.Same, State.reg]

theorem frame_setKey (s : State) (k : Nibble) (down : Bool) : Frame [.keys] s (s.setKey k down) := by
  intro p hp
  cases p <;> simp_all [Part.Same, State.reg]

/-- Settles O49: turn by turn for the step; the two turns of the host are `State.closeSink` and `State.setKey`. -/
theorem closedSinkStaysClosed : Obligations.ClosedSinkStaysClosed := by
  unfold Obligations.ClosedSinkStaysClosed
  refine ⟨fun s t h hclosed hopen => ?step, fun s rest hagenda => ?closeSink, fun s k down rest hagenda => ?setKey⟩
  case step =>
    refine Classical.byContradiction fun hp => ?_
    exact absurd hopen (ne_true_of_eq_false (step_sinkOpen_of_closed h hp hclosed))
  case closeSink =>
    have hframe := (frame_agenda s rest).trans (frame_closeSink _)
    exact ⟨_, step_of_agenda_cons hagenda, rfl, rfl, hframe.mono (by decide)⟩
  case setKey =>
    have hframe := (frame_agenda s rest).trans (frame_setKey _ k down)
    exact ⟨_, step_of_agenda_cons hagenda, Vector.getElem_set_self k.isLt,
      fun j hj => Vector.getElem_set_ne k.isLt j.isLt (Ne.symm hj), rfl, hframe.mono (by decide)⟩

end Sys2Proof.Machine
end

section
/-! PROOFS. The keypad and timer instructions (spec/45_keys_timers.md R230 to R236): a key query with and without an answer
of the host's, the wait for a key, the report that ends it, and the timer transfers. -/

namespace Sys2Proof.Machine

/-- One register written, then `PC`: the other registers stay. -/
theorem regsKept_advance_setReg (s : State) (x : Nibble) (b : Byte) : RegsKept [x] s (s.setReg x b).advance :=
  fun y hy => by rw [State.reg_advance, State.reg_setReg, if_neg (List.ne_of_not_mem_cons hy)]

/-- The register an `Fx0A` writes holds the number of the key. -/
theorem toNat_reg_advance_setReg_key (s : State) (x k : Nibble) :
    ((s.setReg x (k.setWidth 8)).advance.reg x).toNat = k.toNat := by
  rw [State.reg_advance, State.reg_setReg, if_pos rfl]
  exact BitVec.toNat_setWidth_of_le (by decide)

section KeyWait

/-! `Fx0A` with a key press reported (spec/45_keys_timers.md R233). -/

variable {s : State}

theorem exec_ldVxK_of_report {k : Nibble} (x : Nibble) (h : s.keyReport = some k) :
    exec (.ldVxK x) s = .next ({ s with keyReport := none }.setReg x (k.setWidth 8)).advance :=
  (exec_of_fatalCondition_none rfl).trans (congrArg _ (effect_ldVxK x h))

/-- A report made to a state without one is gone when the `Fx0A` has used it. -/
theorem exec_ldVxK_of_new_report (x k : Nibble) (h : s.keyReport = none) :
    exec (.ldVxK x) { s with keyReport := some k } = .next (s.setReg x (k.setWidth 8)).advance := by
  have hused : { s with keyReport := none } = s := by rw [← h]
  rw [exec_ldVxK_of_report x rfl, hused]

/-- A report to a holding engine executes the `Fx0A` at `PC` with the report made (spec/70_reset_and_hazards.md R296;
log 11). -/
theorem reportKeyTurn_of_current {x : Nibble} (k : Nibble) (hrun : s.halt = false) (hreport : s.keyReport = none)
    (hcurrent : s.current = some (.ldVxK x)) :
    reportKeyTurn k s = exec (.ldVxK x) { s with keyReport := some k, executing := true } :=
  calc reportKeyTurn k s
    _ = engineTurn { s with keyReport := some k } := if_pos (s.holding_iff.mpr ⟨hrun, hreport, x, hcurrent⟩)
    _ = fetchExecute { s with keyReport := some k, executing := true } := engineTurn_of_running hrun
    _ = exec (.ldVxK x) { s with keyReport := some k, executing := true } := fetchExecute_of_current_some hcurrent

end KeyWait

/-- Settles O40: the report finds the engine holding, so the turn executes the `Fx0A`, which uses the report up and leaves no
report, as before. -/
theorem reportedKeyCompletesHold : Obligations.ReportedKeyCompletesHold := by
  unfold Obligations.ReportedKeyCompletesHold
  intro s k x rest hagenda hrun hreport hcurrent
  have hstep : step s = .next ({ s with agenda := rest, executing := true }.setReg x (k.setWidth 8)).advance :=
    calc step s
      _ = reportKeyTurn k { s with agenda := rest } := step_of_agenda_cons hagenda
      _ = exec (.ldVxK x) { s with agenda := rest, keyReport := some k, executing := true } :=
        reportKeyTurn_of_current (s := { s with agenda := rest }) k hrun hreport hcurrent
      _ = _ := exec_ldVxK_of_new_report (s := { s with agenda := rest, executing := true }) x k hreport
  have hframe := (((frame_agenda s rest).trans (frame_executing _ true)).trans
    (frame_setReg _ x (k.setWidth 8))).trans (frame_advance _)
  exact ⟨_, hstep, toNat_reg_advance_setReg_key _ x k, regsKept_advance_setReg _ x _, advanced_advance _, rfl,
    hframe.mono (by decide)⟩

/-- Settles O39: with a report the `Fx0A` stores the key and uses the report up, without one it has no effect. -/
theorem keyWaitResult : Obligations.KeyWaitResult := by
  unfold Obligations.KeyWaitResult
  intro x s
  refine ⟨fun k hreport => ?reported, fun hnone => ?hold⟩
  case reported =>
    have hframe := ((frame_keyReport s none).trans (frame_setReg _ x (k.setWidth 8))).trans (frame_advance _)
    exact ⟨_, exec_ldVxK_of_report x hreport, toNat_reg_advance_setReg_key _ x k, rfl, regsKept_advance_setReg _ x _,
      advanced_advance _, hframe.mono (by decide)⟩
  case hold => exact (exec_of_fatalCondition_none rfl).trans (congrArg _ (effect_ldVxK_of_hold x hnone))

section KeyQuery

/-! `KeyPressed` for a number the host has a key for, and for one above 15 (spec/45_keys_timers.md R230, decision D20). -/

variable {s : State} {k : Byte}

theorem State.keyPressed_of_lt (h : k.toNat < 16) : s.keyPressed k = s.keys[k.toNat] := dif_pos h

/-- A query the host answers uses up no free value (log 5). -/
theorem State.afterQuery_of_lt (h : k.toNat < 16) : s.afterQuery k = s := if_pos h

/-- A query without an answer uses up one free value (log 5). -/
theorem State.afterQuery_of_ge (h : 16 ≤ k.toNat) : s.afterQuery k = { s with draws := s.draws + 1 } :=
  if_neg (Nat.not_lt.mpr h)

variable {x : Nibble}

theorem exec_skp_of_lt (h : (s.reg x).toNat < 16) :
    exec (.skp x) s = .next (s.skipIf s.keys[(s.reg x).toNat]) := by
  rw [exec, execSkp, State.afterQuery_of_lt h, State.keyPressed_of_lt h]

theorem exec_sknp_of_lt (h : (s.reg x).toNat < 16) :
    exec (.sknp x) s = .next (s.skipIf (!s.keys[(s.reg x).toNat])) := by
  rw [exec, execSknp, State.afterQuery_of_lt h, State.keyPressed_of_lt h]

/-- Both skips go by the free value when there is no such key. -/
theorem exec_keySkip_of_ge {i : Instr} (h : 16 ≤ (s.reg x).toNat) (hi : i = .skp x ∨ i = .sknp x) :
    ∃ c, exec i s = .next ({ s with draws := s.draws + 1 }.skipIf c) := by
  rcases hi with rfl | rfl
  · exact ⟨s.keyPressed (s.reg x), by rw [exec, execSkp, State.afterQuery_of_ge h]⟩
  · exact ⟨!s.keyPressed (s.reg x), by rw [exec, execSknp, State.afterQuery_of_ge h]⟩

end KeyQuery

/-- Settles O37: each is a skip on the host's key state. -/
theorem keySkipResults : Obligations.KeySkipResults := by
  unfold Obligations.KeySkipResults
  intro x s hkey
  exact ⟨skipsIf_of_exec (exec_skp_of_lt hkey) rfl, skipsIf_of_exec (exec_sknp_of_lt hkey) rfl⟩

/-- Settles O38: each is a skip on a free value, so `PC` moves by 4 or by 2. -/
theorem unknownKeySkipResults : Obligations.UnknownKeySkipResults := by
  unfold Obligations.UnknownKeySkipResults
  intro x s i hkey hi
  obtain ⟨c, hexec⟩ := exec_keySkip_of_ge hkey hi
  have hframe := (frame_draws s (s.draws + 1)).trans (frame_skipIf _ c)
  refine ⟨_, hexec, ?pc, rfl, hframe.mono (by decide)⟩
  have hpc := toNat_skipIf_pc { s with draws := s.draws + 1 } c
  cases c with
  | false => exact .inl hpc
  | true => exact .inr hpc

/-- Settles O42: each moves one byte between `Vx` and a timer. -/
theorem timerTransferResults : Obligations.TimerTransferResults := by
  unfold Obligations.TimerTransferResults
  intro x s
  exact ⟨writes_of_exec rfl rfl,
    ⟨_, exec_of_fatalCondition_none rfl, rfl, advanced_advance _, effect_frame (.ldDtVx x) s⟩,
    ⟨_, exec_of_fatalCondition_none rfl, rfl, advanced_advance _, effect_frame (.ldStVx x) s⟩⟩

end Sys2Proof.Machine
end

section
/-! PROOFS. The latch `HALT` and `CAUSE` under every turn (spec/60_exceptions.md R251 to R253): a turn keeps it, takes a fatal
condition and changes nothing else, or is a power-on. The load that is too long takes one (spec/70_reset_and_hazards.md
R294). -/

namespace Sys2Proof.Machine

/-- `HALT` and `CAUSE` are as before. -/
def KeepsLatch (s t : State) : Prop := t.halt = s.halt ∧ t.cause = s.cause

/-- `t` is the running engine `s` after a fatal condition, but for the mark of the engine's turn (spec/60_exceptions.md R252;
log 10). -/
def TakesFatal (s t : State) : Prop :=
  s.halt = false ∧ ∃ c executing, c ≠ .none ∧ t = { s with executing := executing }.raise c

theorem TakesFatal.cause_ne_none {s t : State} (h : TakesFatal s t) : t.cause ≠ .none := by
  obtain ⟨-, c, executing, hc, rfl⟩ := h
  exact hc

theorem TakesFatal.frame {s t : State} (h : TakesFatal s t) : Frame [.executing, .halt, .cause] s t := by
  obtain ⟨-, c, executing, -, rfl⟩ := h
  exact (frame_executing s executing).trans (frame_raise _ c)

/-- An instruction that completes writes neither `HALT` nor `CAUSE`. -/
theorem effect_keepsLatch (i : Instr) (s : State) : KeepsLatch s (effect i s) :=
  ⟨effect_frame i s .halt fun hmem => absurd (writeSet_subset i hmem) (by decide),
    effect_frame i s .cause fun hmem => absurd (writeSet_subset i hmem) (by decide)⟩

theorem engineTurn_latch_cases {s t : State} (h : engineTurn s = .next t) : KeepsLatch s t ∨ TakesFatal s t := by
  obtain ⟨hrun, hfetch⟩ := engineTurn_eq_next h
  rcases fetchExecute_eq_next hfetch with ⟨c, hc, rfl⟩ | ⟨i, -, -, rfl⟩
  · exact .inr ⟨hrun, c, true, hc, rfl⟩
  · exact .inl (effect_keepsLatch i { s with executing := true })

/-- The `Fx0A` that a key report completes has no fatal condition, so no report is left behind by one. -/
theorem reportKeyTurn_keepsLatch {k : Nibble} {s t : State} (h : reportKeyTurn k s = .next t) : KeepsLatch s t := by
  obtain ⟨hrun, hreport, x, hcurrent⟩ := s.holding_iff.mp (reportKeyTurn_eq_next h).1
  rw [reportKeyTurn_of_current k hrun hreport hcurrent, exec_of_fatalCondition_none rfl] at h
  cases h
  exact effect_keepsLatch (.ldVxK x) { s with keyReport := some k, executing := true }

theorem State.load_latch_cases (program : List Byte) (s : State) :
    KeepsLatch s (s.load program) ∨ TakesFatal s (s.load program) := by
  rcases s.load_cases program with ⟨-, heq⟩ | ⟨-, heq⟩ | ⟨hrun, heq⟩ <;> rw [heq]
  · exact .inl ⟨rfl, rfl⟩
  · exact .inl ⟨rfl, rfl⟩
  · exact .inr ⟨hrun, .programTooLarge, s.executing, by decide, rfl⟩

/-- Everything a turn can do to `HALT` and `CAUSE`. -/
theorem takeTurn_latch_cases {turn : Turn} {s t : State} (h : takeTurn turn s = .next t) :
    KeepsLatch s t ∨ TakesFatal s t ∨ ∃ p, turn = .powerOn p ∧ t = s.powerOn p := by
  cases turn with
  | engine => exact (engineTurn_latch_cases h).imp_right .inl
  | reportKey k => exact .inl (reportKeyTurn_keepsLatch h)
  | powerOn p => exact .inr (.inr ⟨p, rfl, (powerOnTurn_eq_next h).2⟩)
  | load program =>
    obtain ⟨-, rfl⟩ := loadTurn_eq_next h
    exact (s.load_latch_cases program).imp_right .inl
  | tick | warmReset | setKey | closeSink | consumeOutput | readPorts =>
    cases h
    exact .inl ⟨rfl, rfl⟩

/-- Every step is a turn, the engine's when the agenda names none (log 3). -/
theorem step_eq_takeTurn (s : State) :
    ∃ turn rest, step s = takeTurn turn { s with agenda := rest } ∧ ∀ p, turn = .powerOn p → s.PowersOn := by
  rcases step_cases s with ⟨hagenda, heq⟩ | ⟨turn, rest, hagenda, heq⟩
  · exact ⟨.engine, s.agenda, heq, fun p hp => by cases hp⟩
  · exact ⟨turn, rest, heq, fun p hp => ⟨p, rest, hp ▸ hagenda⟩⟩

/-- Settles O54: of the ways a turn can treat `HALT` only a fatal condition sets it; the frame adds the turn used up. -/
theorem fatalStepCommitsNothing : Obligations.FatalStepCommitsNothing := by
  unfold Obligations.FatalStepCommitsNothing
  intro s t h hrun hhalt
  obtain ⟨turn, rest, heq, -⟩ := step_eq_takeTurn s
  rcases takeTurn_latch_cases (heq.symm.trans h) with ⟨hkept, -⟩ | hfatal | ⟨p, -, rfl⟩
  · exact absurd (hhalt.symm.trans (hkept.trans hrun)) (by decide)
  · exact ⟨hfatal.cause_ne_none, ((frame_agenda s rest).trans hfatal.frame).mono (by decide)⟩
  · exact absurd hhalt (by simp)

/-- Settles O53: a fatal condition is taken by a running engine only. -/
theorem haltIsSticky : Obligations.HaltIsSticky := by
  unfold Obligations.HaltIsSticky
  intro s t h hhalt
  obtain ⟨turn, rest, heq, hpower⟩ := step_eq_takeTurn s
  rcases takeTurn_latch_cases (heq.symm.trans h) with ⟨hkept, hcause⟩ | ⟨hrun, -⟩ | ⟨p, hp, -⟩
  · exact .inl ⟨hkept.trans hhalt, hcause⟩
  · exact absurd (hhalt.symm.trans hrun) (by decide)
  · exact .inr (hpower p hp)

section OversizedLoad

variable (s : State) (program : List Byte)

theorem loadTurn_of_idle (h : s.executing = false) : loadTurn program s = .next (s.load program) :=
  if_neg (ne_true_of_eq_false h)

/-- A program that ends above 0xFFF is rejected (spec/70_reset_and_hazards.md R294, decision D25). -/
theorem State.load_of_oversized (h : 3584 < program.length) : s.load program = s.rejectProgram :=
  if_neg fun hfits => Nat.not_lt.mpr (of_decide_eq_true hfits) h

/-- A rejected program halts the engine, and gives the cause unless there is one (spec/60_exceptions.md R253; log 10). -/
theorem State.rejectProgram_latch :
    s.rejectProgram.halt = true ∧ s.rejectProgram.cause = if s.halt then s.cause else .programTooLarge := by
  unfold State.rejectProgram
  split
  · next hhalt => exact ⟨hhalt, rfl⟩
  · exact ⟨rfl, rfl⟩

theorem frame_rejectProgram : Frame [.halt, .cause] s s.rejectProgram := by
  unfold State.rejectProgram
  split
  · exact Frame.refl s _
  · exact frame_raise s .programTooLarge

end OversizedLoad

/-- Settles O47: the turn rejects the program, and neither the turn used up nor the load touches memory. -/
theorem oversizedLoadIsFatal : Obligations.OversizedLoadIsFatal := by
  unfold Obligations.OversizedLoadIsFatal
  intro s program rest hagenda hidle hlong
  have hstep : step s = .next { s with agenda := rest }.rejectProgram :=
    calc step s
      _ = loadTurn program { s with agenda := rest } := step_of_agenda_cons hagenda
      _ = .next ({ s with agenda := rest }.load program) := loadTurn_of_idle { s with agenda := rest } program hidle
      _ = .next { s with agenda := rest }.rejectProgram := congrArg _ (State.load_of_oversized _ program hlong)
  obtain ⟨hhalt, hcause⟩ := State.rejectProgram_latch { s with agenda := rest }
  have hagenda' : Part.Same .agenda { s with agenda := rest } { s with agenda := rest }.rejectProgram :=
    frame_rejectProgram _ .agenda (by decide)
  exact ⟨_, hstep, hhalt, hcause, hagenda', ((frame_agenda s rest).trans (frame_rejectProgram _)).mono (by decide)⟩

end Sys2Proof.Machine
end

section
/-! PROOFS. The turns by which the host starts the engine (spec/70_reset_and_hazards.md R290 to R295): power-on with any
admitted parameters, a load that fits, and warm reset. -/

namespace Sys2Proof.Machine

section PowerOn

variable {p : Params} (s : State)

/-- A font that ends at or below 0x1FF is well-formed (spec/43_index_memory.md R192). -/
theorem Params.wellFormed_of_le (h : p.fontBase.toNat + 79 ≤ 0x1FF) : p.wellFormed = true :=
  decide_eq_true h

theorem powerOnTurn_of_wellFormed (h : p.wellFormed = true) : powerOnTurn p s = .next (s.powerOn p) :=
  if_pos h

/-- Memory after a power-on with parameters that R192 admits (spec/70_reset_and_hazards.md R290). -/
theorem State.read_powerOn_mem (h : p.wellFormed = true) (a : Nat) :
    (s.powerOn p).mem.read a = powerOnByte p a := by
  rw [State.powerOn_mem, read_powerOnMemory p h]

@[simp] theorem State.reg_powerOn (x : Nibble) : (s.powerOn p).reg x = 0 := Vector.getElem_replicate x.isLt

end PowerOn

/-- Settles O45: an admitted turn is `State.powerOn`, whose memory is the font with 0 around it; the other pieces are those of
the reset state, or kept. -/
theorem powerOnResult : Obligations.PowerOnResult := by
  unfold Obligations.PowerOnResult
  intro s p rest hagenda hbase
  have hfont := Params.wellFormed_of_le hbase
  have hstep : step s = .next ({ s with agenda := rest }.powerOn p) :=
    (step_of_agenda_cons hagenda).trans (powerOnTurn_of_wellFormed _ hfont)
  refine ⟨_, hstep, State.reg_powerOn _, rfl, rfl, rfl, State.getElem_reset_stack, fun j => ?font, fun a ha => ?outside,
    rfl, rfl, Display.pixel_blank, rfl, rfl, rfl, rfl, rfl, rfl, rfl, rfl, rfl, rfl⟩
  case font => rw [State.read_powerOn_mem _ hfont, powerOnByte_fontBase_add]
  case outside => rw [State.read_powerOn_mem _ hfont, powerOnByte_outside_font p a ha]

/-- A program of at most 3584 bytes is stored at 0x200 (spec/70_reset_and_hazards.md R294). -/
theorem State.load_of_fits (s : State) {program : List Byte} (h : program.length ≤ 3584) :
    s.load program = { s with mem := s.mem.writeBytes 0x200 program } :=
  if_pos (decide_eq_true h)

/-- Settles O46: the turn stores the program as one block, which reads back byte by byte and leaves the bytes around it. -/
theorem loadResult : Obligations.LoadResult := by
  unfold Obligations.LoadResult
  intro s program rest hagenda hidle hwf hfits
  have hstep : step s = .next { s with agenda := rest, mem := s.mem.writeBytes 0x200 program } :=
    calc step s
      _ = loadTurn program { s with agenda := rest } := step_of_agenda_cons hagenda
      _ = .next ({ s with agenda := rest }.load program) := loadTurn_of_idle { s with agenda := rest } program hidle
      _ = .next { s with agenda := rest, mem := s.mem.writeBytes 0x200 program } :=
        congrArg _ (State.load_of_fits { s with agenda := rest } hfits)
  have hframe := (frame_agenda s rest).trans (frame_mem _ (s.mem.writeBytes 0x200 program))
  exact ⟨_, hstep, fun j hj => Memory.read_writeBytes_add hwf 0x200 program hj,
    fun a ha => Memory.read_writeBytes_outside hwf 0x200 program ha, rfl, hframe.mono (by decide)⟩

theorem frame_warmReset (s : State) : Frame [.pc, .sp, .executing] s s.warmReset := by
  intro p hp
  cases p <;> simp_all [Part.Same, State.reg, State.warmReset]

/-- Settles O44: the turn is `State.warmReset`, in a halted engine as in a running one. -/
theorem warmResetResult : Obligations.WarmResetResult := by
  unfold Obligations.WarmResetResult
  intro s rest hagenda
  have hframe := (frame_agenda s rest).trans (frame_warmReset _)
  exact ⟨_, step_of_agenda_cons hagenda, rfl, rfl, rfl, rfl, hframe.mono (by decide)⟩

end Sys2Proof.Machine
end

section
/-! PROOFS. The words that the test vectors write out with their meaning (spec/95_test_vectors.md V-DEC). -/

namespace Sys2Proof.Machine

/-- Two bytes are rejected by name exactly when their word is in the table of R98 (spec/30_encoding.md R98). -/
theorem decode_eq_unrecognizedOpcode_iff (hi lo : Byte) (w : Word) :
    decode [hi, lo] = .reject (.unrecognizedOpcode w) ↔ unrecognizedWord w.toNat ∧ joinBytes hi lo = w := by
  rw [← decodeWord_eq_none_iff]
  cases h : decodeWord (joinBytes hi lo) with
  | some i =>
    simp only [decode, h, reduceCtorEq, false_iff]
    rintro ⟨hnone, rfl⟩
    exact absurd (h.symm.trans hnone) nofun
  | none =>
    simp only [decode, h, Decoded.reject.injEq, Reject.unrecognizedOpcode.injEq]
    exact ⟨fun hw => ⟨hw ▸ h, hw⟩, And.right⟩

/-- Settles O5: each of the eighteen instructions encodes as its word, and the four other words are in the table of R98. -/
theorem specWordsDecode : Obligations.SpecWordsDecode := by
  unfold Obligations.SpecWordsDecode
  simp only [decode_eq_instr_iff, and_true, decode_eq_unrecognizedOpcode_iff, unrecognizedWord]
  and_intros <;> decide

end Sys2Proof.Machine
end
